-- ==== Sys2Proof/Word.lean ====
section
/-! DEFINITION. The word types of the CORE (spec/00_scope.md R15, R18, R20). -/

namespace Sys2Proof

/-- A register, immediate, ALU or memory word: 16 bits, unsigned (R15, R18). -/
abbrev Word := BitVec 16

/-- One byte of data memory or of program text. -/
abbrev Byte := BitVec 8

/-- One line of `PROG`, a byte string (R8, R20). -/
abbrev Line := List Byte

/-- One space-separated piece of a line (R23, R101). -/
abbrev Token := List Byte

end Sys2Proof
end

