-- ==== Sys2Proof/Machine/Flags.lean ====
section
/-! DEFINITION. The saturating ALU and the two conditions under which it clamps. The CORE has no flags: neither
condition is stored (spec/10_state.md R36; spec/41_register_arith.md R200 to R202). -/

namespace Sys2Proof.Machine

/-- The sum clamps: "the unsigned sum is strictly less than either operand" (R201). -/
def addClamps (x y : Word) : Bool := decide (x + y < x) || decide (x + y < y)

/-- `sat_add16` (R201). -/
def satAdd (x y : Word) : Word := if addClamps x y then 65535 else x + y

/-- The difference clamps: "`value > current`" (R202). -/
def subClamps (cur val : Word) : Bool := decide (cur < val)

/-- `sat_sub16` (R202). -/
def satSub (cur val : Word) : Word := if subClamps cur val then 0 else cur - val

/-- The ALU's `op` input: 0 = ADD, 1 = SUB (R200). -/
inductive AluOp where
  | add | sub
deriving DecidableEq, Repr

/-- The ALU, combinational: `y` from `a`, `b` and `op` (R200). -/
def alu (op : AluOp) (x y : Word) : Word :=
  match op with
  | .add => satAdd x y
  | .sub => satSub x y

end Sys2Proof.Machine
end

