-- ==== Sys2Proof/Config.lean ====
section
/-! DEFINITION. The implementation parameters of the CORE (spec/00_scope.md R15; spec/10_state.md R45). -/

namespace Sys2Proof

/-- The parameters R15 lets an implementation choose. R16's constraints on them are `Config.wf`
(Sys2Proof/WellFormed.lean). -/
structure Config where
  /-- MEM_SIZE, bytes of data memory. -/
  memSize : Nat
  /-- STACK_SIZE, bytes of the stack region. -/
  stackSize : Nat
  /-- IMM_LITERAL_LIMIT: an immediate literal must be below it (R105). -/
  immLiteralLimit : Nat
  /-- MAX_LINE_LEN; `none` is "unbounded" (R124). -/
  maxLineLen : Option Nat
deriving DecidableEq, Repr

/-- The default configuration of R15. DESIGN CHOICE, unsafe (notes/assumptions/2.md): the spec says its
defaults may differ from the reference build. -/
def Config.default : Config where
  memSize := 256
  stackSize := 64
  immLiteralLimit := 2147483648
  maxLineLen := none

end Sys2Proof
end

