-- ==== Sys2Proof/Syntax.lean ====
section
/-! DEFINITION. The syntax of the CORE: registers, opcodes, instructions, the fields of the
decoded-instruction word, and the fault causes (spec/30_encoding.md R102, R110, R112; spec/60_exceptions.md R301). -/

namespace Sys2Proof

/-- The four general registers, index 0 to 3 (spec/10_state.md R30). -/
inductive Reg where
  | a | b | c | d
deriving DecidableEq, Repr

/-- The twelve opcodes, in the order of their codes (R102, R113). -/
inductive Opc where
  | setV | setR | addV | addR | subV | subR | ifnz | print | push | pop | load | store
deriving DecidableEq, Repr

/-- The two kinds of operand (R104, R105, R110). -/
inductive OperandKind where
  | register | numeric
deriving DecidableEq, Repr

/-- One constructor per row of spec/opcode_table.json, operands in the positional order of R111. -/
inductive Instr where
  /-- SETv (R205). -/
  | setV (rd : Reg) (imm : Word)
  /-- SETr (R206). -/
  | setR (rd rs : Reg)
  /-- ADDv (R207). -/
  | addV (rd : Reg) (imm : Word)
  /-- ADDr (R208). -/
  | addR (rd rs : Reg)
  /-- SUBv (R209). -/
  | subV (rd : Reg) (imm : Word)
  /-- SUBr (R210). -/
  | subR (rd rs : Reg)
  /-- IFNZ (R240). -/
  | ifnz (rs : Reg)
  /-- PRINT (R247). -/
  | print (rs : Reg)
  /-- PUSH (R260). -/
  | push (rs : Reg)
  /-- POP (R261). -/
  | pop (rd : Reg)
  /-- LOAD (R263). -/
  | load (addr : Word) (rd : Reg)
  /-- STORE (R264). -/
  | store (addr : Word) (rs : Reg)
deriving DecidableEq, Repr

/-- The fields of the 40-bit decoded-instruction word (R112). -/
structure DiwFields where
  opc  : BitVec 4
  nops : BitVec 2
  t1   : BitVec 1
  v1   : Word
  t2   : BitVec 1
  v2   : Word
deriving DecidableEq, Repr

/-- The values of CAUSE (R301). `none` means no fault; `unknownRegister` is kept for completeness and
never raised (R313). -/
inductive Cause where
  | none
  | unknownOpcode
  | malformedImmediate
  | invalidOperandArity
  | invalidOperandType
  | unknownRegister
  | stackRegionViolationRead
  | stackRegionViolationWrite
  | stackOverflow
  | stackUnderflow
  | heapAddressOutOfRange
  | refused
deriving DecidableEq, Repr

end Sys2Proof
end

