-- ==== Sys2Proof/WellFormed.lean ====
section
/-! DEFINITION. What is well-formed: a configuration (spec/00_scope.md R16), a decoded-instruction word
(spec/30_encoding.md R123, spec/opcode_table.json), an instruction under a configuration (R124). -/

namespace Sys2Proof

/-- `n = 2^k` for some `k >= 1` (R16). -/
def isPowerOfTwo (n : Nat) : Bool := decide (2 ≤ n) && decide (2 ^ Nat.log2 n = n)

/-- R16: MEM_SIZE is a power of two, one heap word fits above the stack region, every 16-bit immediate has
a literal. `0 <= STACK_SIZE` holds by type. -/
def Config.wf (c : Config) : Bool :=
  isPowerOfTwo c.memSize && decide (c.stackSize + 2 ≤ c.memSize) && decide (65536 ≤ c.immLiteralLimit)

/-- What one operand position of a table row holds (R123): a register index, an immediate, or nothing. -/
inductive OperandField where
  | reg | imm | absent
deriving DecidableEq, Repr

/-- The tag and value an operand position may carry (R112, R114, R115). -/
def OperandField.admits : OperandField → BitVec 1 → Word → Bool
  | .reg,    t, v => decide (t = 0) && decide (v < 4)
  | .imm,    t, _ => decide (t = 1)
  | .absent, t, v => decide (t = 0) && decide (v = 0)

/-- A row of R123's table: OPC, NOPS and the two operand positions. -/
structure EncodingRow where
  opc  : BitVec 4
  nops : BitVec 2
  op1  : OperandField
  op2  : OperandField
deriving DecidableEq, Repr

/-- The twelve rows of R123, in its order. -/
def encodingRows : List EncodingRow :=
  [⟨0, 2, .reg, .imm⟩, ⟨1, 2, .reg, .reg⟩, ⟨2, 2, .reg, .imm⟩, ⟨3, 2, .reg, .reg⟩] ++
  [⟨4, 2, .reg, .imm⟩, ⟨5, 2, .reg, .reg⟩, ⟨6, 1, .reg, .absent⟩, ⟨7, 1, .reg, .absent⟩] ++
  [⟨8, 1, .reg, .absent⟩, ⟨9, 1, .reg, .absent⟩, ⟨10, 2, .imm, .reg⟩, ⟨11, 2, .imm, .reg⟩]

/-- A word's fields match a row. -/
def EncodingRow.matches (r : EncodingRow) (w : DiwFields) : Bool :=
  decide (w.opc = r.opc) && decide (w.nops = r.nops) && r.op1.admits w.t1 w.v1 && r.op2.admits w.t2 w.v2

/-- A decoded-instruction word is well-formed when it matches a row of R123. -/
def DiwFields.wf (w : DiwFields) : Bool := encodingRows.any (·.matches w)

/-- How many decimal digits a 16-bit value takes without leading zeros. -/
def decimalWidth (v : Word) : Nat :=
  if v.toNat < 10 then 1 else if v.toNat < 100 then 2 else if v.toNat < 1000 then 3
  else if v.toNat < 10000 then 4 else 5

/-- The length in bytes of an instruction's canonical line (R120): mnemonic, one space before each operand,
a register name of one byte, an immediate without leading zeros. -/
def Instr.lineLength : Instr → Nat
  | .setV _ v | .addV _ v | .subV _ v => 4 + 2 + (1 + decimalWidth v)
  | .setR _ _ | .addR _ _ | .subR _ _ => 4 + 2 + 2
  | .ifnz _ | .push _ => 4 + 2
  | .print _ => 5 + 2
  | .pop _ => 3 + 2
  | .load v _ => 4 + (1 + decimalWidth v) + 2
  | .store v _ => 5 + (1 + decimalWidth v) + 2

/-- An instruction is well-formed under a configuration when MAX_LINE_LEN, if set, admits its canonical line
(R124). Its operands are well-formed by type: every register exists (R30), every immediate has 16 bits (R105). -/
def Instr.wf (c : Config) (i : Instr) : Bool :=
  match c.maxLineLen with
  | none => true
  | some m => decide (i.lineLength ≤ m)

end Sys2Proof
end

