-- ==== Sys2Proof/Decode.lean ====
section
/-! DEFINITION. The instruction decoder and the operand-shape check, total on any bytes and any 40-bit word,
then the encoder (spec/30_encoding.md; spec/40_execution_engine.md R154, R155, R160). -/

namespace Sys2Proof

/-! ## Names and codes -/

/-- The ASCII bytes of a text (R20). -/
def ascii (cs : List Char) : Token := cs.map fun c => BitVec.ofNat 8 c.toNat

/-- The space byte (R20, R101). -/
def space : Byte := 0x20

/-- A register's name (spec/10_state.md R30). -/
def Reg.name : Reg → Token
  | .a => ascii ['a']
  | .b => ascii ['b']
  | .c => ascii ['c']
  | .d => ascii ['d']

/-- A register's index (R30). -/
def Reg.index : Reg → BitVec 2
  | .a => 0 | .b => 1 | .c => 2 | .d => 3

/-- The register of a 2-bit index: every index names one (spec/10_state.md R32). -/
def Reg.ofIndex (k : BitVec 2) : Reg :=
  if k = 0 then .a else if k = 1 then .b else if k = 2 then .c else .d

/-- The 16-bit operand value of a register: `zext_16(index)` (R112). -/
def Reg.value (r : Reg) : Word := r.index.setWidth 16

/-- The register a token names, byte for byte (R104). -/
def Reg.ofName (t : Token) : Option Reg :=
  [Reg.a, Reg.b, Reg.c, Reg.d].find? fun r => decide (r.name = t)

/-- The register a 16-bit operand value names; values above 3 name none (R114). -/
def Reg.ofValue (v : Word) : Option Reg :=
  [Reg.a, Reg.b, Reg.c, Reg.d].find? fun r => decide (r.value = v)

/-- Every opcode, in the order of R102. -/
def Opc.all : List Opc :=
  [.setV, .setR, .addV, .addR, .subV, .subR] ++ [.ifnz, .print, .push, .pop, .load, .store]

/-- The mnemonic strings (R102). -/
def Opc.name : Opc → Token
  | .setV  => ascii ['S', 'E', 'T', 'v']
  | .setR  => ascii ['S', 'E', 'T', 'r']
  | .addV  => ascii ['A', 'D', 'D', 'v']
  | .addR  => ascii ['A', 'D', 'D', 'r']
  | .subV  => ascii ['S', 'U', 'B', 'v']
  | .subR  => ascii ['S', 'U', 'B', 'r']
  | .ifnz  => ascii ['I', 'F', 'N', 'Z']
  | .print => ascii ['P', 'R', 'I', 'N', 'T']
  | .push  => ascii ['P', 'U', 'S', 'H']
  | .pop   => ascii ['P', 'O', 'P']
  | .load  => ascii ['L', 'O', 'A', 'D']
  | .store => ascii ['S', 'T', 'O', 'R', 'E']

/-- The opcode codes (R102, R113). -/
def Opc.code : Opc → BitVec 4
  | .setV => 0 | .setR => 1 | .addV => 2 | .addR => 3 | .subV => 4 | .subR => 5
  | .ifnz => 6 | .print => 7 | .push => 8 | .pop => 9 | .load => 10 | .store => 11

/-- The exact-match table of R102. -/
def Opc.ofName (t : Token) : Option Opc := Opc.all.find? fun o => decide (o.name = t)

/-- The opcode of a code; 12 to 15 are reserved (R117). -/
def Opc.ofCode (k : BitVec 4) : Option Opc := Opc.all.find? fun o => decide (o.code = k)

/-- The operand shapes (R110). -/
def Opc.shape : Opc → List OperandKind
  | .setV | .addV | .subV => [.register, .numeric]
  | .setR | .addR | .subR => [.register, .register]
  | .ifnz | .print | .push | .pop => [.register]
  | .load | .store => [.numeric, .register]

/-- The tag of an operand kind in the word: REGISTER = 0, NUMERIC = 1 (R112). -/
def OperandKind.tag : OperandKind → BitVec 1
  | .register => 0
  | .numeric => 1

/-- The numbers of the fault causes (spec/60_exceptions.md R301). -/
def Cause.code : Cause → BitVec 4
  | .none => 0
  | .unknownOpcode => 1
  | .malformedImmediate => 2
  | .invalidOperandArity => 3
  | .invalidOperandType => 4
  | .unknownRegister => 5
  | .stackRegionViolationRead => 6
  | .stackRegionViolationWrite => 7
  | .stackOverflow => 8
  | .stackUnderflow => 9
  | .heapAddressOutOfRange => 10
  | .refused => 11

/-! ## The layout of the decoded-instruction word (R112) -/

/-- `DIW = {OPC[3:0], NOPS[1:0], T1, V1[15:0], T2, V2[15:0]}` (R112). -/
def DiwFields.pack (f : DiwFields) : BitVec 40 :=
  f.opc ++ f.nops ++ f.t1 ++ f.v1 ++ f.t2 ++ f.v2

/-- The fields of a word, by the bit positions of R112's table. -/
def DiwFields.unpack (w : BitVec 40) : DiwFields where
  opc  := w.extractLsb' 36 4
  nops := w.extractLsb' 34 2
  t1   := w.extractLsb' 33 1
  v1   := w.extractLsb' 17 16
  t2   := w.extractLsb' 16 1
  v2   := w.extractLsb' 0 16

/-! ## From a line to the word -/

/-- `tokens(line)`: split at every single space byte; pieces may be empty (R20, R101). -/
def tokens : Line → List Token
  | [] => [[]]
  | b :: rest =>
    if b = space then [] :: tokens rest
    else match tokens rest with
      | [] => [[b]]
      | t :: ts => (b :: t) :: ts

/-- An ASCII decimal digit, 0x30 to 0x39 (R105). -/
def isDigit (b : Byte) : Bool := decide (0x30 ≤ b) && decide (b ≤ 0x39)

/-- The decimal value of a string of digits, exact at any length (R105). -/
def decimalValue (t : Token) : Nat := t.foldl (fun n b => 10 * n + (b.toNat - 0x30)) 0

/-- `parse_imm` (R105, R106). -/
def parseImm (c : Config) (t : Token) : Except Cause Word :=
  if t ≠ [] ∧ t.all isDigit ∧ decimalValue t < c.immLiteralLimit then .ok (BitVec.ofNat 16 (decimalValue t))
  else .error .malformedImmediate

/-- `classify`: an operand token's tag and value (R104 to R106). -/
def classify (c : Config) (t : Token) : Except Cause (BitVec 1 × Word) :=
  match Reg.ofName t with
  | some r => .ok (OperandKind.register.tag, r.value)
  | none =>
    match parseImm c t with
    | .ok v => .ok (OperandKind.numeric.tag, v)
    | .error e => .error e

/-- Operand position `j` of a line's operand tokens: classified when present, `(0, 0)` when absent (R107, R115). -/
def classifyAt (c : Config) (operands : List Token) (j : Nat) : Except Cause (BitVec 1 × Word) :=
  match operands[j]? with
  | some t => classify c t
  | none => .ok (0, 0)

/-- Whether MAX_LINE_LEN is set and the line is longer (R124). -/
def lineTooLong (c : Config) (line : Line) : Bool :=
  match c.maxLineLen with
  | none => false
  | some m => decide (m < line.length)

/-- The decoded fields of a line already split into mnemonic and operand tokens: the checks of R109, 2 to 4, in
their order. -/
def decodeTokens (c : Config) (mnemonic : Token) (operands : List Token) : Except Cause DiwFields :=
  match Opc.ofName mnemonic with
  | none => .error .unknownOpcode
  | some o =>
    match classifyAt c operands 0 with
    | .error e => .error e
    | .ok p =>
      match classifyAt c operands 1 with
      | .error e => .error e
      | .ok q => .ok ⟨o.code, BitVec.ofNat 2 (min operands.length 3), p.1, p.2, q.1, q.2⟩

/-- `decode(line)`, the decoder's 40-bit output or its cause (R116, R109). -/
def decodeLine (c : Config) (line : Line) : Except Cause (BitVec 40) :=
  if lineTooLong c line then .error .refused
  else
    match tokens line with
    | [] => .error .unknownOpcode
    | mnemonic :: operands =>
      match decodeTokens c mnemonic operands with
      | .error e => .error e
      | .ok f => .ok f.pack

/-! ## From the word to the instruction -/

/-- The type check of R155: operand tags against the shape, in order. -/
def tagsMatch (o : Opc) (f : DiwFields) : Bool :=
  (o.shape.zip [f.t1, f.t2]).all fun p => p.1.tag == p.2

/-- The instruction of a word whose arity and tags fit its opcode. `none` for the words `decode` never
produces: a register value above 3 (R114), a nonzero absent operand (R115). -/
def assemble (o : Opc) (f : DiwFields) : Option Instr :=
  match o with
  | .setV  => (Reg.ofValue f.v1).map fun rd => .setV rd f.v2
  | .addV  => (Reg.ofValue f.v1).map fun rd => .addV rd f.v2
  | .subV  => (Reg.ofValue f.v1).map fun rd => .subV rd f.v2
  | .setR  => (Reg.ofValue f.v1).bind fun rd => (Reg.ofValue f.v2).map fun rs => .setR rd rs
  | .addR  => (Reg.ofValue f.v1).bind fun rd => (Reg.ofValue f.v2).map fun rs => .addR rd rs
  | .subR  => (Reg.ofValue f.v1).bind fun rd => (Reg.ofValue f.v2).map fun rs => .subR rd rs
  | .ifnz  => if f.t2 = 0 ∧ f.v2 = 0 then (Reg.ofValue f.v1).map .ifnz else none
  | .print => if f.t2 = 0 ∧ f.v2 = 0 then (Reg.ofValue f.v1).map .print else none
  | .push  => if f.t2 = 0 ∧ f.v2 = 0 then (Reg.ofValue f.v1).map .push else none
  | .pop   => if f.t2 = 0 ∧ f.v2 = 0 then (Reg.ofValue f.v1).map .pop else none
  | .load  => (Reg.ofValue f.v2).map fun rd => .load f.v1 rd
  | .store => (Reg.ofValue f.v2).map fun rs => .store f.v1 rs

/-- The dispatcher's checks before it runs an instruction, in the order of R156: reserved opcode (R160), arity
(R154), types (R155). A word that passes them and matches no row of R123 cannot come from `decode`; it is
refused. DESIGN CHOICE, safe (notes/assumptions/5.md). -/
def checkFields (f : DiwFields) : Except Cause Instr :=
  match Opc.ofCode f.opc with
  | none => .error .refused
  | some o =>
    if f.nops.toNat ≠ o.shape.length then .error .invalidOperandArity
    else if tagsMatch o f then
      match assemble o f with
      | some i => .ok i
      | none => .error .refused
    else .error .invalidOperandType

/-- `checkFields` on the 40-bit word. -/
def checkShape (w : BitVec 40) : Except Cause Instr := checkFields (.unpack w)

/-- A line to an instruction, or the cause the step raises: decode (R153), then the shape check. -/
def decode (c : Config) (line : Line) : Except Cause Instr :=
  match decodeLine c line with
  | .error e => .error e
  | .ok w => checkShape w

/-! ## The encoder -/

/-- The fields of an instruction's decoded-instruction word (R123). -/
def encodeFields : Instr → DiwFields
  | .setV rd v  => ⟨0, 2, 0, rd.value, 1, v⟩
  | .setR rd rs => ⟨1, 2, 0, rd.value, 0, rs.value⟩
  | .addV rd v  => ⟨2, 2, 0, rd.value, 1, v⟩
  | .addR rd rs => ⟨3, 2, 0, rd.value, 0, rs.value⟩
  | .subV rd v  => ⟨4, 2, 0, rd.value, 1, v⟩
  | .subR rd rs => ⟨5, 2, 0, rd.value, 0, rs.value⟩
  | .ifnz rs    => ⟨6, 1, 0, rs.value, 0, 0⟩
  | .print rs   => ⟨7, 1, 0, rs.value, 0, 0⟩
  | .push rs    => ⟨8, 1, 0, rs.value, 0, 0⟩
  | .pop rd     => ⟨9, 1, 0, rd.value, 0, 0⟩
  | .load v rd  => ⟨10, 2, 1, v, 0, rd.value⟩
  | .store v rs => ⟨11, 2, 1, v, 0, rs.value⟩

/-- An instruction's decoded-instruction word (R123). -/
def encode (i : Instr) : BitVec 40 := (encodeFields i).pack

/-- The ASCII digit of a number below 10 (R105). -/
def digit (n : Nat) : Byte := BitVec.ofNat 8 (0x30 + n)

/-- Decimal digits of `n`, most significant first, at most `fuel + 1` of them. -/
def digits : Nat → Nat → Token
  | 0, n => [digit (n % 10)]
  | fuel + 1, n => if n < 10 then [digit n] else digits fuel (n / 10) ++ [digit (n % 10)]

/-- Unsigned decimal without leading zeros, "0" for zero (spec/00_scope.md R11; an immediate of R120). -/
def decimal (n : Nat) : Token := digits n n

/-- Tokens joined by single spaces (R120). -/
def joinTokens : List Token → Line
  | [] => []
  | [t] => t
  | t :: ts => t ++ space :: joinTokens ts

/-- The canonical line of an instruction in the assembler syntax of R120. -/
def encodeLine : Instr → Line
  | .setV rd v  => joinTokens [Opc.setV.name, rd.name, decimal v.toNat]
  | .setR rd rs => joinTokens [Opc.setR.name, rd.name, rs.name]
  | .addV rd v  => joinTokens [Opc.addV.name, rd.name, decimal v.toNat]
  | .addR rd rs => joinTokens [Opc.addR.name, rd.name, rs.name]
  | .subV rd v  => joinTokens [Opc.subV.name, rd.name, decimal v.toNat]
  | .subR rd rs => joinTokens [Opc.subR.name, rd.name, rs.name]
  | .ifnz rs    => joinTokens [Opc.ifnz.name, rs.name]
  | .print rs   => joinTokens [Opc.print.name, rs.name]
  | .push rs    => joinTokens [Opc.push.name, rs.name]
  | .pop rd     => joinTokens [Opc.pop.name, rd.name]
  | .load v rd  => joinTokens [Opc.load.name, decimal v.toNat, rd.name]
  | .store v rs => joinTokens [Opc.store.name, decimal v.toNat, rs.name]

/-! ## The line of a word, for the host's table words -/

/-- The token of an operand position: a register name, a decimal literal, or none for a register value that no
register has. -/
def operandToken (t : BitVec 1) (v : Word) : Option Token :=
  if t = OperandKind.numeric.tag then some (decimal v.toNat) else (Reg.ofValue v).map Reg.name

/-- A line that `decodeLine` turns into the fields `f`, where there is one (R112 to R115). A third operand token
stands for NOPS = 3, whose extra tokens leave no value in the word (R107). -/
def lineOfFields (f : DiwFields) : Option Line :=
  match Opc.ofCode f.opc with
  | none => none
  | some o =>
    if f.nops = 0 then
      if f.t1 = 0 ∧ f.v1 = 0 ∧ f.t2 = 0 ∧ f.v2 = 0 then some (joinTokens [o.name]) else none
    else if f.nops = 1 then
      if f.t2 = 0 ∧ f.v2 = 0 then (operandToken f.t1 f.v1).map fun p => joinTokens [o.name, p] else none
    else
      (operandToken f.t1 f.v1).bind fun p => (operandToken f.t2 f.v2).map fun q =>
        if f.nops = 2 then joinTokens [o.name, p, q] else joinTokens [o.name, p, q, decimal 0]

/-- The line of a table word of `nbits` bits: the program store holds lines, so this is the form in which the
hardware stores the instruction whose decoded-instruction word is `w` (R100, R112). Bits above `nbits` are 0. -/
def lineOfTableWord (nbits w : Nat) : Option Line :=
  if w % 2 ^ nbits < 2 ^ 40 then lineOfFields (.unpack (BitVec.ofNat 40 (w % 2 ^ nbits))) else none

/-- The instruction the decoder reads from the line whose decoded-instruction word is `w`, numbered as
spec/opcode_table.json numbers it. -/
def decodeTableWord (nbits w : Nat) : Option Instr :=
  match lineOfTableWord nbits w with
  | none => none
  | some line =>
    match decode .default line with
    | .ok i => some i
    | .error _ => none

end Sys2Proof
end

