-- ==== Sys2Proof/Machine/State.lean ====
section
/-! DEFINITION. The state of the CORE as plain data, the reasons a step can stop, and the state after reset
(spec/10_state.md; spec/70_reset_and_hazards.md R340). -/

namespace Sys2Proof.Machine

/-- The run state `RUN` (R38). -/
inductive RunState where
  | running | haltedOk | haltedFault
deriving DecidableEq, Repr

/-- The register file `x[0..3]` (R30). -/
structure RegFile where
  a : Word
  b : Word
  c : Word
  d : Word
deriving DecidableEq, Repr

/-- Data memory: the bytes that differ from what an unlisted address reads as, by rising address (R40;
`Memory.wf` in Sys2Proof/Machine/Ops.lean). -/
abbrev Memory := List Host.Cell

/-- Everything the spec gives the machine (R30 to R45). `prog` and `cfg` are R45's parameters of the step, which
no step changes; they stand here because a step takes a state alone (notes/assumptions/1.md). -/
structure State where
  /-- `x[0..3]` (R30). -/
  regs  : RegFile
  /-- `SP`, a byte offset into the stack region (R33). -/
  sp    : Nat
  /-- `PC`, an unbounded line index (R34). -/
  pc    : Nat
  /-- `RUN` (R38). -/
  run   : RunState
  /-- `CAUSE` (R39). -/
  cause : Cause
  /-- `MEM` (R40). -/
  mem   : Memory
  /-- `OUT`, oldest event first (R41). -/
  out   : List Word
  /-- `PROG`, the lines `L[0..n-1]` (R42). -/
  prog  : List Line
  /-- The configuration (R15, R45). -/
  cfg   : Config
deriving DecidableEq, Repr

/-- Why the machine has no next state. The CORE's own faults (R301) are not here: they are next states with RUN
and CAUSE written (spec/60_exceptions.md R310). -/
inductive Fault where
  /-- `step`, when RUN is not RUNNING: "there is no step" (spec/40_execution_engine.md R159). Safe. -/
  | halted
deriving DecidableEq, Repr

/-- Why the model gives no meaning. -/
inductive Refusal where
  /-- `exec`, for an instruction without a meaning yet. Safe. -/
  | notModelled (mnemonic : String)
  /-- `boot` and `step`, for a configuration that breaks spec/00_scope.md R16: it "is refused by the model before
  reset". Safe. -/
  | invalidConfiguration
deriving DecidableEq, Repr

/-- The machine right after reset (R340), with the default configuration of R15 and no program loaded
(notes/assumptions/2.md, 6.md). -/
def State.reset : State where
  regs  := ⟨0, 0, 0, 0⟩
  sp    := 0
  pc    := 0
  run   := .running
  cause := .none
  mem   := []
  out   := []
  prog  := []
  cfg   := .default

end Sys2Proof.Machine
end

