-- ==== Sys2Proof/Machine/Ops.lean ====
section
/-! DEFINITION. The named operations over registers, memory and the state, and the one shared fault operation
(spec/00_scope.md R19; spec/60_exceptions.md R310). -/

namespace Sys2Proof.Machine

/-! ## Register file (spec/10_state.md R30, R32) -/

/-- `x[i]` of a register file. -/
def RegFile.read (f : RegFile) : Reg → Word
  | .a => f.a
  | .b => f.b
  | .c => f.c
  | .d => f.d

/-- `x[i] <- v` of a register file. -/
def RegFile.write (f : RegFile) (r : Reg) (v : Word) : RegFile :=
  match r with
  | .a => { f with a := v }
  | .b => { f with b := v }
  | .c => { f with c := v }
  | .d => { f with d := v }

/-- A read port (A or B): index in, data out (R32). -/
def RegFile.readPort (f : RegFile) (index : BitVec 2) : Word := f.read (Reg.ofIndex index)

/-- The write port W: enable, index, data (R32). -/
def RegFile.writePort (f : RegFile) (enable : Bool) (index : BitVec 2) (data : Word) : RegFile :=
  if enable then f.write (Reg.ofIndex index) data else f

/-! ## Data memory (spec/20_memory.md R63, R80) -/

/-- What an address with no listed byte reads as: "every byte is 0" after reset (spec/10_state.md R40). -/
def unlistedByte : Byte := 0

/-- `MEM[a]` (R19). -/
def Memory.readByte : Memory → Nat → Byte
  | [], _ => unlistedByte
  | cell :: m, a => if cell.1 = a then cell.2 else Memory.readByte m a

/-- Without the byte listed at `a`. -/
def Memory.eraseCell (m : Memory) (a : Nat) : Memory := m.filter fun cell => decide (cell.1 ≠ a)

/-- A byte listed in its place by address. -/
def Memory.insertCell (a : Nat) (v : Byte) : Memory → Memory
  | [] => [(a, v)]
  | cell :: m => if a < cell.1 then (a, v) :: cell :: m else cell :: Memory.insertCell a v m

/-- `MEM[a] <- v` (R19), keeping the canonical form: the value an unlisted address reads as is not listed. -/
def Memory.writeByte (m : Memory) (a : Nat) (v : Byte) : Memory :=
  if v = unlistedByte then Memory.eraseCell m a else Memory.insertCell a v (Memory.eraseCell m a)

/-- The low byte `v[7:0]`. -/
def lowByte (v : Word) : Byte := v.extractLsb' 0 8

/-- The high byte `v[15:8]`. -/
def highByte (v : Word) : Byte := v.extractLsb' 8 8

/-- `MemRead(addr, 2) = {MEM[addr+1], MEM[addr]}`, little-endian, no checks (R19, R63). -/
def Memory.readWord (m : Memory) (a : Nat) : Word := Memory.readByte m (a + 1) ++ Memory.readByte m a

/-- `MemWrite(addr, 2, v)`, little-endian, no checks (R19, R63). -/
def Memory.writeWord (m : Memory) (a : Nat) (v : Word) : Memory :=
  Memory.writeByte (Memory.writeByte m a (lowByte v)) (a + 1) (highByte v)

/-- The canonical form: addresses strictly rising, no listed byte equal to what an unlisted address reads as. -/
def Memory.wf (m : Memory) : Bool :=
  decide (m.Pairwise fun p q => p.1 < q.1) && m.all fun cell => decide (cell.2 ≠ unlistedByte)

/-- Every listed address lies in a memory of `n` bytes (R61). -/
def Memory.within (n : Nat) (m : Memory) : Bool := m.all fun cell => decide (cell.1 < n)

/-! ## The state -/

/-- The default advance `PC <- PC + 1` (spec/40_execution_engine.md R158). -/
def State.advance (s : State) : State := { s with pc := s.pc + 1 }

/-- `PC <- PC + 2`, a taken skip (spec/42_skip_print.md R240). -/
def State.skip (s : State) : State := { s with pc := s.pc + 2 }

/-- `SP <- v` (spec/00_scope.md R19). -/
def State.setSp (s : State) (v : Nat) : State := { s with sp := v }

/-- `MemWrite(addr, 2, v)` on the state (R19). -/
def State.storeWord (s : State) (a : Nat) (v : Word) : State := { s with mem := Memory.writeWord s.mem a v }

/-- `Emit(v)`: append to `OUT` (R19, R41). -/
def State.emit (s : State) (v : Word) : State := { s with out := s.out ++ [v] }

/-- `halt_ok()` (spec/40_execution_engine.md R151). -/
def State.haltOk (s : State) : State := { s with run := .haltedOk }

/-- What a fault writes: CAUSE and RUN, nothing else (spec/60_exceptions.md R310). -/
def State.faulted (s : State) (c : Cause) : State := { s with cause := c, run := .haltedFault }

/-- `raise Fault(cause)`: the one way every fault of the CORE is taken (R300, R310). There is no handler to go
to and no return from a fault (R306, R308). -/
def raiseFault (c : Cause) (s : State) : Host.Outcome State Fault Refusal := .next (s.faulted c)

/-- The only way out of a halted state: a host reset, which sets every piece of state to its reset value and
keeps `PROG` and the configuration (spec/70_reset_and_hazards.md R340; spec/60_exceptions.md R308). -/
def State.hostReset (s : State) : State := { State.reset with prog := s.prog, cfg := s.cfg }

end Sys2Proof.Machine
end

