-- ==== Sys2Proof/Machine/Operands.lean ====
section
/-! DEFINITION. Every operand form and addressing mode: register operands, the absolute address of LOAD and
STORE, the implicit stack address of PUSH and POP (spec/43_stack_heap.md R266; spec/10_state.md R31, R32). -/

namespace Sys2Proof.Machine

/-- `x[r]`: a register operand, read through a read port at the start of the step (R19, R204). -/
def State.reg (s : State) (r : Reg) : Word := s.regs.readPort r.index

/-- `x[r] <- v`: the one register write of a step, through the write port (R19, R31, R32). -/
def State.setReg (s : State) (r : Reg) (v : Word) : State := { s with regs := s.regs.writePort true r.index v }

/-- The address of a heap access: `ea = V1`, no base, index or scaling (R266). -/
def heapAddress (addr : Word) : Nat := addr.toNat

/-- The address PUSH writes: `ea = SP` (R266). -/
def pushAddress (s : State) : Nat := s.sp

/-- The address POP reads: `ea = SP - 2` (R266). -/
def popAddress (s : State) : Nat := s.sp - 2

end Sys2Proof.Machine
end

