-- ==== Sys2Proof/Machine/Arith.lean ====
section
/-! DEFINITION. SETv, SETr, ADDv, ADDr, SUBv, SUBr (spec/41_register_arith.md R205 to R210). -/

namespace Sys2Proof.Machine

/-- SETv: `x[d] <- imm; PC <- PC + 1` (R205). -/
def execSetV (rd : Reg) (imm : Word) (s : State) : Host.Outcome State Fault Refusal :=
  .next (s.setReg rd imm).advance

/-- SETr: `x[d] <- x[s]; PC <- PC + 1` (R206). -/
def execSetR (rd rs : Reg) (s : State) : Host.Outcome State Fault Refusal :=
  .next (s.setReg rd (s.reg rs)).advance

/-- ADDv: `x[d] <- sat_add16(x[d], imm); PC <- PC + 1` (R207). -/
def execAddV (rd : Reg) (imm : Word) (s : State) : Host.Outcome State Fault Refusal :=
  .next (s.setReg rd (alu .add (s.reg rd) imm)).advance

/-- ADDr: `x[d] <- sat_add16(x[d], x[s]); PC <- PC + 1` (R208). -/
def execAddR (rd rs : Reg) (s : State) : Host.Outcome State Fault Refusal :=
  .next (s.setReg rd (alu .add (s.reg rd) (s.reg rs))).advance

/-- SUBv: `x[d] <- sat_sub16(x[d], imm); PC <- PC + 1` (R209). -/
def execSubV (rd : Reg) (imm : Word) (s : State) : Host.Outcome State Fault Refusal :=
  .next (s.setReg rd (alu .sub (s.reg rd) imm)).advance

/-- SUBr: `x[d] <- sat_sub16(x[d], x[s]); PC <- PC + 1` (R210). -/
def execSubR (rd rs : Reg) (s : State) : Host.Outcome State Fault Refusal :=
  .next (s.setReg rd (alu .sub (s.reg rd) (s.reg rs))).advance

end Sys2Proof.Machine
end

