-- ==== Sys2Proof/Machine/SkipPrint.lean ====
section
/-! DEFINITION. IFNZ with the conditional-skip controller, and PRINT (spec/42_skip_print.md R240 to R248). -/

namespace Sys2Proof.Machine

/-- `PC + 1 < n and |L[PC+1]| = 0` (R240, R243). -/
def nextLineEmpty (s : State) : Bool := decide (s.prog[s.pc + 1]? = some [])

/-- IFNZ: skip the next line if the register IS zero; a skip onto an empty line is refused (R240, R243, R244). -/
def execIfnz (rs : Reg) (s : State) : Host.Outcome State Fault Refusal :=
  if s.reg rs = 0 then
    if nextLineEmpty s then raiseFault .refused s else .next s.skip
  else .next s.advance

/-- PRINT: `Emit(x[r]); PC <- PC + 1` (R247). -/
def execPrint (rs : Reg) (s : State) : Host.Outcome State Fault Refusal :=
  .next (s.emit (s.reg rs)).advance

end Sys2Proof.Machine
end

