-- ==== Sys2Proof/Machine/Validator.lean ====
section
/-! DEFINITION. The memory address validator: the stack/heap partition check and the bounds checks
(spec/20_memory.md R68 to R74). It reads no memory and writes nothing. -/

namespace Sys2Proof.Machine

/-- The validator's `kind` input (R68). -/
inductive AccessKind where
  | heapRead | heapWrite | push | pop
deriving DecidableEq, Repr

/-- The heap checks in the order of R72: the stack-region check with the cause of the access (R69, R70), then the
upper bound (R71). -/
def validateHeap (c : Config) (violation : Cause) (addr : Word) : Except Cause Nat :=
  if heapAddress addr < c.stackSize then .error violation
  else if heapAddress addr + 1 > c.memSize - 1 then .error .heapAddressOutOfRange
  else .ok (heapAddress addr)

/-- The effective address of an access, or the cause of its fault (R69 to R74). -/
def validate (kind : AccessKind) (addr : Word) (s : State) : Except Cause Nat :=
  match kind with
  | .heapRead  => validateHeap s.cfg .stackRegionViolationRead addr
  | .heapWrite => validateHeap s.cfg .stackRegionViolationWrite addr
  | .push => if s.sp + 2 > s.cfg.stackSize then .error .stackOverflow else .ok (pushAddress s)
  | .pop  => if s.sp < 2 then .error .stackUnderflow else .ok (popAddress s)

end Sys2Proof.Machine
end

