-- ==== Sys2Proof/Machine/StackHeap.lean ====
section
/-! DEFINITION. PUSH, POP, LOAD, STORE (spec/43_stack_heap.md R260 to R264). -/

namespace Sys2Proof.Machine

/-- PUSH: check, `MemWrite(SP, 2, x[r])`, `SP <- SP + 2`, `PC <- PC + 1` (R260). -/
def execPush (rs : Reg) (s : State) : Host.Outcome State Fault Refusal :=
  match validate .push 0 s with
  | .error c => raiseFault c s
  | .ok ea => .next ((s.storeWord ea (s.reg rs)).setSp (s.sp + 2)).advance

/-- POP: check, `x[d] <- MemRead(SP - 2, 2)`, `SP <- SP - 2`, `PC <- PC + 1`; memory is not cleared (R261,
spec/20_memory.md R77). -/
def execPop (rd : Reg) (s : State) : Host.Outcome State Fault Refusal :=
  match validate .pop 0 s with
  | .error c => raiseFault c s
  | .ok ea => .next ((s.setReg rd (Memory.readWord s.mem ea)).setSp (s.sp - 2)).advance

/-- LOAD: check, `x[d] <- MemRead(addr, 2)`, `PC <- PC + 1` (R263). -/
def execLoad (addr : Word) (rd : Reg) (s : State) : Host.Outcome State Fault Refusal :=
  match validate .heapRead addr s with
  | .error c => raiseFault c s
  | .ok ea => .next (s.setReg rd (Memory.readWord s.mem ea)).advance

/-- STORE: check, `MemWrite(addr, 2, x[r])`, `PC <- PC + 1` (R264). -/
def execStore (addr : Word) (rs : Reg) (s : State) : Host.Outcome State Fault Refusal :=
  match validate .heapWrite addr s with
  | .error c => raiseFault c s
  | .ok ea => .next (s.storeWord ea (s.reg rs)).advance

end Sys2Proof.Machine
end

