-- ==== Sys2Proof/Machine/Dispatch.lean ====
section
/-! DEFINITION. One arm per instruction (spec/40_execution_engine.md R157). -/

namespace Sys2Proof.Machine

def exec (i : Instr) (s : State) : Host.Outcome State Fault Refusal :=
  match i with
  | .setV rd imm => Sys2Proof.Machine.execSetV rd imm s
  | .setR rd rs => Sys2Proof.Machine.execSetR rd rs s
  | .addV rd imm => Sys2Proof.Machine.execAddV rd imm s
  | .addR rd rs => Sys2Proof.Machine.execAddR rd rs s
  | .subV rd imm => Sys2Proof.Machine.execSubV rd imm s
  | .subR rd rs => Sys2Proof.Machine.execSubR rd rs s
  | .ifnz rs => Sys2Proof.Machine.execIfnz rs s
  | .print rs => Sys2Proof.Machine.execPrint rs s
  | .push rs => Sys2Proof.Machine.execPush rs s
  | .pop rd => Sys2Proof.Machine.execPop rd s
  | .load addr rd => Sys2Proof.Machine.execLoad addr rd s
  | .store addr rs => Sys2Proof.Machine.execStore addr rs s

end Sys2Proof.Machine
end

