-- ==== Sys2Proof/Machine/Engine.lean ====
section
/-! DEFINITION. The fetch-execute dispatcher: what a step of a running block does with the line at PC
(spec/40_execution_engine.md R150 to R163). -/

namespace Sys2Proof.Machine

/-- `L[PC]`, or none at end of input (R150, R151). -/
def fetchLine (s : State) : Option Line := s.prog[s.pc]?

/-- The dispatcher on a decoded-instruction word, total over all 40-bit words: the checks of R154, R155 and R160,
then the instruction (R157). -/
def dispatchWord (w : BitVec 40) (s : State) : Host.Outcome State Fault Refusal :=
  match checkShape w with
  | .error c => raiseFault c s
  | .ok i => exec i s

/-- A non-empty line: decode (R153), then dispatch. -/
def runLine (line : Line) (s : State) : Host.Outcome State Fault Refusal :=
  match decodeLine s.cfg line with
  | .error c => raiseFault c s
  | .ok w => dispatchWord w s

/-- `step()` of R163, defined only when RUN = RUNNING. -/
def runningStep (s : State) : Host.Outcome State Fault Refusal :=
  match fetchLine s with
  | none => .next s.haltOk
  | some line => if line = [] then .next s.advance else runLine line s

/-- A program with `line` at index `n`, other lines kept; missing earlier lines are empty. -/
def placeLine (prog : List Line) (n : Nat) (line : Line) : List Line :=
  prog.take n ++ List.replicate (n - prog.length) [] ++ line :: prog.drop (n + 1)

/-- The line placed for a table word that no line decodes to: "?", an unknown opcode (R103). DESIGN CHOICE, safe
(notes/assumptions/7.md). -/
def unfetchableLine : Line := ascii ['?']

end Sys2Proof.Machine
end

