-- ==== Sys2Proof/Machine/Step.lean ====
section
/-! DEFINITION. One step of the machine, and the host's placing of a table word where the step fetches. -/

namespace Sys2Proof.Machine

/-- One step. A configuration that breaks spec/00_scope.md R16 "never runs" (spec/60_exceptions.md R314); a halted
block takes no step (spec/40_execution_engine.md R159); a running one takes R163's. -/
def step (s : State) : Host.Outcome State Fault Refusal :=
  if s.cfg.wf then
    match s.run with
    | .running => runningStep s
    | .haltedOk => .fault .halted
    | .haltedFault => .fault .halted
  else .refused .invalidConfiguration

/-- The state with the line of a table word at PC (spec/10_state.md R42: the host loads `PROG`). -/
def State.withFetchWord (s : State) (nbits w : Nat) : State :=
  { s with prog := placeLine s.prog s.pc ((lineOfTableWord nbits w).getD unfetchableLine) }

end Sys2Proof.Machine
end

