-- ==== Sys2Proof/Machine/HostPort.lean ====
section
/-! DEFINITION. The block's interface to its host: program lines in, reset, `OUT` and `STATUS` out
(spec/00_scope.md R8 to R13; spec/70_reset_and_hazards.md R344, R345). -/

namespace Sys2Proof.Machine

/-- The line-feed byte (R8). -/
def lineFeed : Byte := 0x0A

/-- The lines of a program file: the runs of bytes between line feeds, a final run only if non-empty (R9). -/
def splitLines : List Byte → List Line
  | [] => []
  | b :: rest =>
    if b = lineFeed then [] :: splitLines rest
    else match splitLines rest with
      | [] => [[b]]
      | l :: ls => (b :: l) :: ls

/-- The lines the host places in `PROG`: empty ones dropped (R9, R10). -/
def programOfFile (bytes : List Byte) : List Line := (splitLines bytes).filter fun l => decide (l ≠ [])

/-- Boot: choose a configuration, load `PROG`, release reset; a configuration that breaks R16 is refused before
reset (R16, R344). -/
def boot (c : Config) (prog : List Line) : Host.Outcome State Fault Refusal :=
  if c.wf then .next { State.reset with prog := prog, cfg := c } else .refused .invalidConfiguration

/-- RUN's 2-bit encoding (spec/10_state.md R38). -/
def RunState.code : RunState → BitVec 2
  | .running => 0
  | .haltedOk => 1
  | .haltedFault => 2

/-- The `STATUS` port: RUN and CAUSE (R12). -/
def statusPort (s : State) : BitVec 2 × BitVec 4 := (s.run.code, s.cause.code)

/-- The process exit code, once the run has ended (R12). -/
def exitCode (s : State) : Option Nat :=
  match s.run with
  | .running => none
  | .haltedOk => some 0
  | .haltedFault => some 1

/-- One `OUT` event as the host renders it: decimal, then a line feed (R11). -/
def renderEvent (v : Word) : List Byte := decimal v.toNat ++ [lineFeed]

/-- The host's standard output after a run (R11, R345). -/
def renderOut (s : State) : List Byte := s.out.flatMap renderEvent

end Sys2Proof.Machine
end

