-- ==== Sys2Proof/Safety.lean ====
section
/-! DEFINITION. The terms in which claims about the CORE are stated: the invariant of reachable states, what a
step keeps, which instruction may write or raise what, and runs. -/

namespace Sys2Proof.Machine

/-! ## The invariant -/

/-- What every reachable state satisfies: a valid configuration (spec/00_scope.md R16), an even SP within the
stack region (spec/20_memory.md R75), memory in canonical form with no byte past MEM_SIZE (R61), CAUSE = NONE
exactly when RUN is not HALTED_FAULT (spec/10_state.md R39), and no UnknownRegister (spec/60_exceptions.md R313). -/
structure StateInv (s : State) : Prop where
  cfgWf : s.cfg.wf = true
  spEven : s.sp % 2 = 0
  spLe : s.sp ≤ s.cfg.stackSize
  memWf : Memory.wf s.mem = true
  memWithin : Memory.within s.cfg.memSize s.mem = true
  causeIff : s.cause = .none ↔ s.run ≠ .haltedFault
  causeRaised : s.cause ≠ .unknownRegister

/-! ## Frames -/

/-- Every register outside `ds` keeps its value. -/
def KeepsRegsBut (ds : List Reg) (s t : State) : Prop := ∀ r, r ∉ ds → t.reg r = s.reg r

/-- Every byte of memory keeps its value. -/
def KeepsMemory (s t : State) : Prop := ∀ a, Memory.readByte t.mem a = Memory.readByte s.mem a

/-- Every byte of memory outside the two bytes at `ea` keeps its value. -/
def KeepsMemoryOutsideWord (ea : Nat) (s t : State) : Prop :=
  ∀ a, a ≠ ea → a ≠ ea + 1 → Memory.readByte t.mem a = Memory.readByte s.mem a

/-- RUN, CAUSE, the program store and the configuration keep their values. -/
def KeepsControl (s t : State) : Prop :=
  t.run = s.run ∧ t.cause = s.cause ∧ t.prog = s.prog ∧ t.cfg = s.cfg

/-- The outcome is the fault `c` taken from `s`: CAUSE and RUN written, nothing else (spec/60_exceptions.md R310). -/
def Raises (c : Cause) (s : State) (o : Host.Outcome State Fault Refusal) : Prop :=
  o = .next { s with cause := c, run := .haltedFault }

/-- The line at PC decodes to `i` (spec/40_execution_engine.md R150, R153 to R155). -/
def Fetches (s : State) (i : Instr) : Prop :=
  ∃ line, s.prog[s.pc]? = some line ∧ line ≠ [] ∧ decode s.cfg line = .ok i

/-- A step may run: a valid configuration and RUN = RUNNING (R159). -/
def Ready (s : State) : Prop := s.cfg.wf = true ∧ s.run = .running

/-- How an instruction is encoded: its assembler line (spec/30_encoding.md R120) and the OPC, NOPS and tag fields
of its word (R123). -/
def EncodedAs (i : Instr) (mnemonic : List Char) (operands : List Token) (opc : BitVec 4) (nops : BitVec 2)
    (t1 t2 : BitVec 1) : Prop :=
  encodeLine i = joinTokens (ascii mnemonic :: operands) ∧
  (DiwFields.unpack (encode i)).opc = opc ∧ (DiwFields.unpack (encode i)).nops = nops ∧
  (DiwFields.unpack (encode i)).t1 = t1 ∧ (DiwFields.unpack (encode i)).t2 = t2

/-! ## Who writes and who raises what -/

/-- The register an instruction may write (spec/10_state.md R31). -/
def dest : Instr → Option Reg
  | .setV rd _ | .setR rd _ | .addV rd _ | .addR rd _ | .subV rd _ | .subR rd _ | .pop rd | .load _ rd => some rd
  | .ifnz _ | .print _ | .push _ | .store _ _ => none

/-- PUSH or POP. -/
def isStackInstr : Instr → Bool
  | .push _ | .pop _ => true
  | _ => false

/-- A STORE whose two bytes overlap the bytes `a` and `a + 1`. -/
def storesNear (a : Word) : Instr → Bool
  | .store b _ => decide (b.toNat ≤ a.toNat + 1) && decide (a.toNat ≤ b.toNat + 1)
  | _ => false

/-- The causes an instruction raises once its line has decoded (spec/60_exceptions.md R302). -/
def raisable : Instr → List Cause
  | .setV _ _ | .setR _ _ | .addV _ _ | .addR _ _ | .subV _ _ | .subR _ _ | .print _ => []
  | .ifnz _ => [.refused]
  | .push _ => [.stackOverflow]
  | .pop _ => [.stackUnderflow]
  | .load _ _ => [.stackRegionViolationRead, .heapAddressOutOfRange]
  | .store _ _ => [.stackRegionViolationWrite, .heapAddressOutOfRange]

/-! ## Runs -/

/-- Steps until RUN is not RUNNING, at most `fuel` of them (spec/70_reset_and_hazards.md R350). -/
def runToHalt : Nat → State → Host.Outcome State Fault Refusal
  | 0, s => .next s
  | fuel + 1, s =>
    if s.run = .running then
      match step s with
      | .next t => runToHalt fuel t
      | .fault f => .fault f
      | .refused r => .refused r
    else .next s

/-- The effects of instructions one after another. -/
def execAll : List Instr → State → Host.Outcome State Fault Refusal
  | [], s => .next s
  | i :: is, s =>
    match exec i s with
    | .next t => execAll is t
    | .fault f => .fault f
    | .refused r => .refused r

/-- Two states that agree on everything but the free part of the stack region, the bytes from SP up to
STACK_SIZE (spec/20_memory.md R77). -/
def SameButFreeStack (s t : State) : Prop :=
  t = { s with mem := t.mem } ∧
  (∀ a, a < s.sp → Memory.readByte t.mem a = Memory.readByte s.mem a) ∧
  (∀ a, s.cfg.stackSize ≤ a → Memory.readByte t.mem a = Memory.readByte s.mem a)

end Sys2Proof.Machine
end

