-- ==== Sys2Proof/Certificates/Slice0/Obligations.lean ====
section
/-! DEFINITION. The statements for the provers, each from the numbered rules of spec/ that its docstring cites. -/

open Sys2Proof Sys2Proof.Machine

/-! ## Encoding -/

/-- Words and lines written out from the spec (spec/95_test_vectors.md E1, E2 and programs P1 to P3): the decoder
reads each line as the word given there, and that word as the instruction. A sanity statement. The word's layout is
the spec's decision D13. -/
def Obligations.WrittenLinesDecode : Prop :=
  (decodeLine .default (ascii ['S', 'E', 'T', 'v', ' ', 'd', ' ', '6', '5', '5', '3', '5']) = .ok 0x080007FFFF ∧
    checkShape 0x080007FFFF = .ok (.setV .d 65535)) ∧
  (decodeLine .default (ascii ['A', 'D', 'D', 'r', ' ', 'b', ' ', 'a']) = .ok 0x3800020000 ∧
    checkShape 0x3800020000 = .ok (.addR .b .a)) ∧
  (decodeLine .default (ascii ['S', 'U', 'B', 'v', ' ', 'b', ' ', '5']) = .ok 0x4800030005 ∧
    checkShape 0x4800030005 = .ok (.subV .b 5)) ∧
  (decodeLine .default (ascii ['I', 'F', 'N', 'Z', ' ', 'b']) = .ok 0x6400020000 ∧
    checkShape 0x6400020000 = .ok (.ifnz .b)) ∧
  (decodeLine .default (ascii ['P', 'O', 'P', ' ', 'd']) = .ok 0x9400060000 ∧
    checkShape 0x9400060000 = .ok (.pop .d)) ∧
  (decodeLine .default (ascii ['L', 'O', 'A', 'D', ' ', '6', '5', '6', '3', '6', ' ', 'd']) = .ok 0xAA00C80003 ∧
    checkShape 0xAA00C80003 = .ok (.load 100 .d)) ∧
  (decodeLine .default (ascii ['S', 'T', 'O', 'R', 'E', ' ', '2', '5', '4', ' ', 'c']) = .ok 0xBA01FC0002 ∧
    checkShape 0xBA01FC0002 = .ok (.store 254 .c))

/-- Every instruction's word (R123) passes the shape check as that instruction, with every operand at every value.
The word's layout is the spec's decision D13. -/
def Obligations.EncodedWordDecodesBack : Prop :=
  ∀ i : Instr, checkShape (encode i) = .ok i

/-- A word that passes the shape check is the word of its instruction: no bit of it is ignored (R117, R123). The
word's layout is the spec's decision D13; that a word with a stray bit is refused is the model's choice
(notes/assumptions/5.md). -/
def Obligations.DecodedWordEncodesBack : Prop :=
  ∀ (w : BitVec 40) (i : Instr), checkShape w = .ok i → encode i = w

/-- The shape check passes exactly the words that match a row of R123's table. That other words the decoder never
produces are refused too is the model's choice (notes/assumptions/5.md). -/
def Obligations.WordPassesExactlyWhenARowMatches : Prop :=
  ∀ w : BitVec 40, (∃ i, checkShape w = .ok i) ↔ (DiwFields.unpack w).wf = true

/-- Under a valid configuration that admits its length, every instruction's assembler line (R120) decodes to its
word, and so to itself. The register names and the literal grammar are the spec's decisions D1 and D6. -/
def Obligations.CanonicalLineDecodesBack : Prop :=
  ∀ (c : Config) (i : Instr), c.wf = true → i.wf c = true →
    decodeLine c (encodeLine i) = .ok (encode i) ∧ decode c (encodeLine i) = .ok i

/-- What the decoder puts in the fields of its word, for every line it accepts: the opcode code of token 0, the
operand count `min(k, 3)`, and for tokens 1 and 2 the tag and value of a register name or an immediate, zero when
the token is absent (R104, R107, R112 to R115). The count's `min` and the word are the spec's decisions D7 and D13. -/
def Obligations.DecodedWordHoldsTheTokens : Prop :=
  ∀ (c : Config) (line : Line) (w : BitVec 40), decodeLine c line = .ok w →
    (∃ o : Opc, (tokens line)[0]? = some o.name ∧ (DiwFields.unpack w).opc = o.code) ∧
    (DiwFields.unpack w).nops.toNat = min ((tokens line).length - 1) 3 ∧
    (∀ t, (tokens line)[1]? = some t →
      (∃ r : Reg, t = r.name ∧ (DiwFields.unpack w).t1 = 0 ∧ (DiwFields.unpack w).v1 = r.value) ∨
      ((∀ r : Reg, t ≠ r.name) ∧ (DiwFields.unpack w).t1 = 1 ∧ parseImm c t = .ok (DiwFields.unpack w).v1)) ∧
    (∀ t, (tokens line)[2]? = some t →
      (∃ r : Reg, t = r.name ∧ (DiwFields.unpack w).t2 = 0 ∧ (DiwFields.unpack w).v2 = r.value) ∨
      ((∀ r : Reg, t ≠ r.name) ∧ (DiwFields.unpack w).t2 = 1 ∧ parseImm c t = .ok (DiwFields.unpack w).v2)) ∧
    ((tokens line)[1]? = none → (DiwFields.unpack w).t1 = 0 ∧ (DiwFields.unpack w).v1 = 0) ∧
    ((tokens line)[2]? = none → (DiwFields.unpack w).t2 = 0 ∧ (DiwFields.unpack w).v2 = 0)

/-- R101: on every line, the tokens are the pieces between single space bytes: no token holds a space, and the tokens
with one space between each two give the line back; no other nonempty list of space-free pieces does. So a leading,
a trailing or a repeated space gives an empty token, and `k` spaces give `k + 1` of them. That each single space
splits is the spec's decision D5. -/
def Obligations.TokensSplitAtEverySpace : Prop :=
  ∀ line : Line,
    (tokens line ≠ [] ∧ (∀ t ∈ tokens line, (0x20 : Byte) ∉ t) ∧ List.intercalate [0x20] (tokens line) = line) ∧
    (∀ ts : List Token, ts ≠ [] → (∀ t ∈ ts, (0x20 : Byte) ∉ t) → List.intercalate [0x20] ts = line →
      tokens line = ts) ∧
    (∀ k : Nat, line = List.replicate k 0x20 → tokens line = List.replicate (k + 1) [])

/-- R103: a line within MAX_LINE_LEN whose token 0 is none of the twelve mnemonics faults with UnknownOpcode,
whatever its operand tokens are. -/
def Obligations.UnknownMnemonicFaults : Prop :=
  ∀ (s : State) (line : Line), Ready s → s.prog[s.pc]? = some line → line ≠ [] →
    (∀ m, s.cfg.maxLineLen = some m → line.length ≤ m) →
    (∀ o : Opc, (tokens line)[0]? ≠ some o.name) →
    Raises .unknownOpcode s (step s)

/-- R124: MAX_LINE_LEN is unbounded by default; when it is set, a longer line is refused whatever it holds. The
parameter and its refusal are the spec's decision D21. -/
def Obligations.OverlongLineIsRefused : Prop :=
  Config.default.maxLineLen = none ∧
  ∀ (s : State) (line : Line) (m : Nat), Ready s → s.prog[s.pc]? = some line →
    s.cfg.maxLineLen = some m → m < line.length → Raises .refused s (step s)

/-- R105: an immediate token is one or more bytes 0x30 to 0x39 whose decimal value (here the library's
`Nat.ofDigits`, least significant digit first) is below IMM_LITERAL_LIMIT; its value is taken mod 65536. Every other
token is malformed. The grammar and the limit are the spec's decision D6. -/
def Obligations.ImmediateIsDecimalValueModulo65536 : Prop :=
  ∀ (c : Config) (t : Token),
    let value := Nat.ofDigits 10 (t.reverse.map fun b : Byte => b.toNat - 0x30)
    ((t ≠ [] ∧ (∀ b ∈ t, 0x30 ≤ b.toNat ∧ b.toNat ≤ 0x39) ∧ value < c.immLiteralLimit) →
      ∃ v, parseImm c t = .ok v ∧ v.toNat = value % 65536) ∧
    (¬ (t ≠ [] ∧ (∀ b ∈ t, 0x30 ≤ b.toNat ∧ b.toNat ≤ 0x39) ∧ value < c.immLiteralLimit) →
      parseImm c t = .error .malformedImmediate)

/-- The five instructions with an immediate take the literal mod 65536 (R105; the corner cases of R205, R207 and
R263: "SETv a 65536" stores 0, "LOAD 65636 a" reads address 100). The source says "truncated/cast to 16 bits"; the
literal limit is the spec's decision D6. -/
def Obligations.LiteralsAreTruncated : Prop :=
  ∀ (c : Config) (rd : Reg) (n : Nat), n < c.immLiteralLimit → c.maxLineLen = none →
    decode c (joinTokens [ascii ['S', 'E', 'T', 'v'], rd.name, decimal n]) = .ok (.setV rd (BitVec.ofNat 16 n)) ∧
    decode c (joinTokens [ascii ['A', 'D', 'D', 'v'], rd.name, decimal n]) = .ok (.addV rd (BitVec.ofNat 16 n)) ∧
    decode c (joinTokens [ascii ['S', 'U', 'B', 'v'], rd.name, decimal n]) = .ok (.subV rd (BitVec.ofNat 16 n)) ∧
    decode c (joinTokens [ascii ['L', 'O', 'A', 'D'], decimal n, rd.name]) = .ok (.load (BitVec.ofNat 16 n) rd) ∧
    decode c (joinTokens [ascii ['S', 'T', 'O', 'R', 'E'], decimal n, rd.name]) =
      .ok (.store (BitVec.ofNat 16 n) rd)

/-- R106: after a known mnemonic, a token 1 or 2 that is neither a register name nor a parseable immediate faults
with MalformedImmediate, whatever the opcode, the position and the number of operands. That it holds in every
position is the spec's decision D10. -/
def Obligations.MalformedOperandFaults : Prop :=
  ∀ (s : State) (line : Line) (o : Opc) (j : Nat) (t : Token), Ready s → s.prog[s.pc]? = some line →
    (∀ m, s.cfg.maxLineLen = some m → line.length ≤ m) →
    (tokens line)[0]? = some o.name → (j = 1 ∨ j = 2) → (tokens line)[j]? = some t →
    (∀ r : Reg, t ≠ r.name) → (∀ v, parseImm s.cfg t ≠ .ok v) →
    Raises .malformedImmediate s (step s)

/-! ## The dispatcher -/

/-- R154 and R155 with R110's counts and kinds written out: one operand for the codes 6 to 9, two for the others;
operand 1 NUMERIC for 10 and 11; operand 2 NUMERIC for 0, 2 and 4. A wrong count is InvalidOperandArity; with the
right count a wrong kind is InvalidOperandType. That surplus operands fault is the spec's decision D8, that the
arity comes before the type its decision D9 (R156), and the word's layout and codes its decision D13
(notes/assumptions/3.md). -/
def Obligations.WrongShapeFaults : Prop :=
  ∀ (s : State) (w : BitVec 40),
    let f := DiwFields.unpack w
    let count := if 6 ≤ f.opc.toNat ∧ f.opc.toNat ≤ 9 then 1 else 2
    let kind1 : BitVec 1 := if 10 ≤ f.opc.toNat then 1 else 0
    let kind2 : BitVec 1 := if f.opc.toNat = 0 ∨ f.opc.toNat = 2 ∨ f.opc.toNat = 4 then 1 else 0
    f.opc.toNat < 12 →
    (f.nops.toNat ≠ count → Raises .invalidOperandArity s (dispatchWord w s)) ∧
    (f.nops.toNat = count → (f.t1 ≠ kind1 ∨ (count = 2 ∧ f.t2 ≠ kind2)) →
      Raises .invalidOperandType s (dispatchWord w s))

/-- R160: a word with OPC 12 to 15 raises Refused, whatever its other bits; the decoder never produces one. The
reserved codes and their refusal are the spec's decision D13. -/
def Obligations.ReservedOpcodeIsRefused : Prop :=
  (∀ (s : State) (w : BitVec 40), 12 ≤ (DiwFields.unpack w).opc.toNat → Raises .refused s (dispatchWord w s)) ∧
  (∀ (c : Config) (line : Line) (w : BitVec 40), decodeLine c line = .ok w → (DiwFields.unpack w).opc.toNat < 12)

/-- A step of a ready state whose line at PC decodes to an instruction is that instruction's meaning; the step adds
nothing around it (R157, R163). -/
def Obligations.StepRunsTheDecodedInstruction : Prop :=
  ∀ (s : State) (i : Instr), Ready s → Fetches s i → step s = exec i s

/-- A line that does not decode to an instruction ends the step in the fault the decoder or the shape check
names (R153, R156). -/
def Obligations.StepRaisesTheDecodeFault : Prop :=
  ∀ (s : State) (line : Line) (c : Cause), Ready s → s.prog[s.pc]? = some line → line ≠ [] →
    decode s.cfg line = .error c → Raises c s (step s)

/-- R151: at end of input RUN becomes HALTED_OK and nothing else changes; no other step ends in HALTED_OK. A program
of zero lines so halts at its first step. -/
def Obligations.EndOfInputHalts : Prop :=
  (∀ s : State, Ready s → s.prog.length ≤ s.pc → step s = .next { s with run := .haltedOk }) ∧
  (∀ s t : State, step s = .next t → t.run = .haltedOk → s.prog.length ≤ s.pc) ∧
  (∀ (c : Config) (s : State), boot c [] = .next s → step s = .next { s with run := .haltedOk })

/-- R152: an empty line only advances PC by 1; a line of one or more spaces is not empty and raises UnknownOpcode.
That only a zero-length line is empty is the spec's decision D5. -/
def Obligations.OnlyZeroLengthLinesAreSkipped : Prop :=
  (∀ s : State, Ready s → s.prog[s.pc]? = some [] → step s = .next { s with pc := s.pc + 1 }) ∧
  (∀ (s : State) (k : Nat), Ready s → s.prog[s.pc]? = some (List.replicate (k + 1) 0x20) →
    (∀ m, s.cfg.maxLineLen = some m → k + 1 ≤ m) → Raises .unknownOpcode s (step s))

/-- A halted block takes no step. That the model answers with the fault `halted` is its choice
(notes/assumptions/4.md) for R159's "there is no step". -/
def Obligations.HaltedBlockTakesNoStep : Prop :=
  ∀ s : State, s.cfg.wf = true → s.run ≠ .running → step s = .fault .halted

/-- R16: booting a configuration whose MEM_SIZE is 2^k with k >= 1, whose stack region leaves room for a heap word
and whose literal limit is at least 65536 gives the reset state with the program loaded; any other configuration is
refused before reset, and a state that holds one takes no step. The constraints and the refusal are the spec's
decisions D2 and D3; the refusal's name is the model's (notes/assumptions/8.md). -/
def Obligations.OnlyValidConfigurationsRun : Prop :=
  ∀ (c : Config) (prog : List Line),
    (((∃ k, 1 ≤ k ∧ c.memSize = 2 ^ k) ∧ c.stackSize + 2 ≤ c.memSize ∧ 65536 ≤ c.immLiteralLimit) →
      boot c prog = .next { State.reset with prog := prog, cfg := c }) ∧
    (¬ ((∃ k, 1 ≤ k ∧ c.memSize = 2 ^ k) ∧ c.stackSize + 2 ≤ c.memSize ∧ 65536 ≤ c.immLiteralLimit) →
      boot c prog = .refused .invalidConfiguration ∧
      ∀ s : State, s.cfg = c → step s = .refused .invalidConfiguration)

/-- R158: a step that leaves the block running advances PC by 2 when it is an IFNZ of a zero register, else by 1; a
step that halts the block leaves PC alone. -/
def Obligations.StepMovesPcByOneOrTakenSkip : Prop :=
  ∀ s t : State, step s = .next t →
    (t.run = .running ∧
      ((t.pc = s.pc + 1 ∧ ∀ rs, Fetches s (.ifnz rs) → s.reg rs ≠ 0) ∨
        (t.pc = s.pc + 2 ∧ ∃ rs, Fetches s (.ifnz rs) ∧ s.reg rs = 0))) ∨
    (t.run ≠ .running ∧ t.pc = s.pc)

/-- R161 and R350: from every ready state, whatever its program, the block halts within `n + 1 - PC` steps (at least
one), so within `n + 1` steps of a program's start. The spec derives it from R151, R158 and R159. -/
def Obligations.RunHaltsWithinProgramLength : Prop :=
  (∀ s : State, Ready s → ∃ t, runToHalt (s.prog.length - s.pc + 1) s = .next t ∧ t.run ≠ .running) ∧
  (∀ (c : Config) (prog : List Line), c.wf = true →
    ∃ s t, boot c prog = .next s ∧ runToHalt (prog.length + 1) s = .next t ∧ t.run ≠ .running)

/-- R310: a step that ends in HALTED_FAULT writes CAUSE, with a cause that is not NONE, and RUN, and nothing else:
no register, no memory byte, no SP, no PC, no output event. -/
def Obligations.FaultWritesOnlyCauseAndRun : Prop :=
  ∀ s t : State, step s = .next t → t.run = .haltedFault →
    t.cause ≠ .none ∧ t = { s with cause := t.cause, run := .haltedFault }

/-- R302: the causes a step can raise. A line that does not decode raises UnknownOpcode, MalformedImmediate,
InvalidOperandArity or InvalidOperandType, or Refused when it is longer than MAX_LINE_LEN; a decoded instruction
raises only the causes R302 gives it. The spec derives the table from its fault rules. -/
def Obligations.FaultCausesByInstruction : Prop :=
  ∀ s t : State, step s = .next t → t.run = .haltedFault →
    ∃ line, s.prog[s.pc]? = some line ∧ line ≠ [] ∧
      ((decode s.cfg line = .error t.cause ∧
          (t.cause = .unknownOpcode ∨ t.cause = .malformedImmediate ∨ t.cause = .invalidOperandArity ∨
            t.cause = .invalidOperandType ∨
            (t.cause = .refused ∧ ∃ m, s.cfg.maxLineLen = some m ∧ m < line.length))) ∨
        ∃ i, decode s.cfg line = .ok i ∧ t.cause ∈ raisable i)

/-- R10 and R243: while the host keeps empty lines out of `PROG` and MAX_LINE_LEN is unbounded, no step raises
Refused; and a program taken from a file has no empty line (R9). The refusals are the spec's decisions D15 and D21. -/
def Obligations.ConformingProgramsAreNeverRefused : Prop :=
  (∀ s t : State, s.cfg.maxLineLen = none → (∀ line ∈ s.prog, line ≠ []) → s.cause ≠ .refused →
    step s = .next t → t.cause ≠ .refused) ∧
  (∀ bytes : List Byte, ∀ line ∈ programOfFile bytes, line ≠ [])

/-- No step changes the program store or the configuration (R42, R45, R83). The spec makes both parameters of the
step; that State carries them is the model's choice (notes/assumptions/1.md). -/
def Obligations.StepKeepsProgramAndConfiguration : Prop :=
  ∀ s t : State, step s = .next t → t.prog = s.prog ∧ t.cfg = s.cfg

/-- A step looks at the line at PC and at whether the next line is empty, and at no other line: any other line may
be changed to anything (R122, R164, R241). -/
def Obligations.StepReadsOnlyTheLineAtPc : Prop :=
  ∀ (s t : State) (q : List Line), q[s.pc]? = s.prog[s.pc]? →
    (q[s.pc + 1]? = some [] ↔ s.prog[s.pc + 1]? = some []) →
    step s = .next t → step { s with prog := q } = .next { t with prog := q }

/-! ## The invariant -/

/-- Every step keeps the invariant `StateInv`, from every state that has it (R16, R39, R61, R75, R313). -/
def Obligations.StepKeepsInvariant : Prop :=
  ∀ s t : State, StateInv s → step s = .next t → StateInv t

/-- The reset state has the invariant, and so has every booted state. -/
def Obligations.ResetAndBootMeetInvariant : Prop :=
  StateInv State.reset ∧ ∀ (c : Config) (prog : List Line) (s : State), boot c prog = .next s → StateInv s

/-! ## Who writes what -/

/-- A step changes a register only when it runs an instruction that R31 lists as writing it; so no step changes
two registers. -/
def Obligations.RegisterChangesOnlyByItsWriter : Prop :=
  ∀ (s t : State) (r : Reg), step s = .next t → t.reg r ≠ s.reg r →
    ∃ i, Fetches s i ∧ dest i = some r

/-- A step changes a byte of memory only by a PUSH to the two bytes at SP or a STORE to the two bytes at its
address (R40). -/
def Obligations.MemoryChangesOnlyByPushAndStore : Prop :=
  ∀ (s t : State) (a : Nat), step s = .next t → Memory.readByte t.mem a ≠ Memory.readByte s.mem a →
    (∃ rs, Fetches s (.push rs) ∧ (a = s.sp ∨ a = s.sp + 1)) ∨
    (∃ addr rs, Fetches s (.store addr rs) ∧ (a = addr.toNat ∨ a = addr.toNat + 1))

/-- A step changes `OUT` only by a PRINT, which appends its register's value at the end (R11, R41). -/
def Obligations.OutputChangesOnlyByPrint : Prop :=
  ∀ s t : State, step s = .next t →
    t.out = s.out ∨ ∃ rs, Fetches s (.print rs) ∧ t.out = s.out ++ [s.reg rs]

/-- A step changes SP only by a PUSH, which adds 2, or a POP, which subtracts 2 (R33). -/
def Obligations.StackPointerChangesOnlyByPushAndPop : Prop :=
  ∀ s t : State, step s = .next t →
    t.sp = s.sp ∨ (∃ rs, Fetches s (.push rs) ∧ t.sp = s.sp + 2) ∨ (∃ rd, Fetches s (.pop rd) ∧ t.sp + 2 = s.sp)

/-- R76: PUSH and POP change no heap byte, STORE and LOAD change no stack byte and none past the end of memory. What
LOAD loads does not depend on any stack byte; while SP lies in the stack region (`StateInv.spLe`), what POP loads
does not depend on any byte at or above STACK_SIZE; PUSH and STORE read no memory at all, so what they do to the
rest of the state depends on no byte. The spec derives it from R69 to R75. -/
def Obligations.StackAndHeapAreDisjoint : Prop :=
  ∀ (s t : State) (r : Reg) (addr : Word),
    ((exec (.push r) s = .next t ∨ exec (.pop r) s = .next t) →
      ∀ a, s.cfg.stackSize ≤ a → Memory.readByte t.mem a = Memory.readByte s.mem a) ∧
    ((exec (.store addr r) s = .next t ∨ exec (.load addr r) s = .next t) →
      ∀ a, (a < s.cfg.stackSize ∨ s.cfg.memSize ≤ a) → Memory.readByte t.mem a = Memory.readByte s.mem a) ∧
    (∀ m : Memory, (∀ a, s.cfg.stackSize ≤ a → Memory.readByte m a = Memory.readByte s.mem a) →
      exec (.load addr r) s = .next t → exec (.load addr r) { s with mem := m } = .next { t with mem := m }) ∧
    (∀ m : Memory, s.sp ≤ s.cfg.stackSize →
      (∀ a, a < s.cfg.stackSize → Memory.readByte m a = Memory.readByte s.mem a) →
      exec (.pop r) s = .next t → exec (.pop r) { s with mem := m } = .next { t with mem := m }) ∧
    (∀ m : Memory,
      (exec (.push r) s = .next t → ∃ m', exec (.push r) { s with mem := m } = .next { t with mem := m' }) ∧
      (exec (.store addr r) s = .next t → ∃ m', exec (.store addr r) { s with mem := m } = .next { t with mem := m' }))

/-- The bytes of the stack region from SP up cannot be observed: two states that differ only there stay so at every
step, with the same registers, output, PC, RUN and CAUSE (R69, R77: "No instruction can observe those bytes"). That
whole runs agree is derived here. -/
def Obligations.FreeStackBytesAreUnobservable : Prop :=
  ∀ s₁ s₂ t₁ : State, SameButFreeStack s₁ s₂ → step s₁ = .next t₁ →
    ∃ t₂, step s₂ = .next t₂ ∧ SameButFreeStack t₁ t₂

/-! ## Reset and the host's ports -/

/-- R340: a host reset puts every register, SP, PC, RUN, CAUSE, every byte of memory and `OUT` at its reset value,
and keeps `PROG` and the configuration. The values of PC, RUN and CAUSE are the spec's decisions D14 and D24; that a
reset is an operation and no step is the model's choice (notes/assumptions/10.md). -/
def Obligations.HostResetRestoresResetValues : Prop :=
  ∀ s : State,
    (∀ r, s.hostReset.reg r = 0) ∧ s.hostReset.sp = 0 ∧ s.hostReset.pc = 0 ∧ s.hostReset.run = .running ∧
    s.hostReset.cause = .none ∧ (∀ a, Memory.readByte s.hostReset.mem a = 0) ∧ s.hostReset.out = [] ∧
    s.hostReset.prog = s.prog ∧ s.hostReset.cfg = s.cfg

/-- `STATUS` carries the codes of RUN (0 to 2, R38) and CAUSE (0 to 11, R301's table) and tells them apart (R39);
the CAUSE code is 0 exactly when RUN's is not 2 in a state with the invariant, and the exit code is 0 for HALTED_OK,
1 for HALTED_FAULT (R12). The codes are the spec's decision D11. -/
def Obligations.StatusPortShowsRunAndCause : Prop :=
  (∀ s t : State, statusPort s = statusPort t → s.run = t.run ∧ s.cause = t.cause) ∧
  (∀ s : State, statusPort s = (s.run.code, s.cause.code)) ∧
  (RunState.code .running = 0 ∧ RunState.code .haltedOk = 1 ∧ RunState.code .haltedFault = 2) ∧
  ((Cause.code .none = 0 ∧ Cause.code .unknownOpcode = 1 ∧ Cause.code .malformedImmediate = 2 ∧
      Cause.code .invalidOperandArity = 3 ∧ Cause.code .invalidOperandType = 4 ∧ Cause.code .unknownRegister = 5) ∧
    (Cause.code .stackRegionViolationRead = 6 ∧ Cause.code .stackRegionViolationWrite = 7 ∧
      Cause.code .stackOverflow = 8 ∧ Cause.code .stackUnderflow = 9 ∧ Cause.code .heapAddressOutOfRange = 10 ∧
      Cause.code .refused = 11)) ∧
  (∀ s : State, StateInv s → ((statusPort s).2 = 0 ↔ (statusPort s).1 ≠ 2)) ∧
  (∀ s : State, (s.run = .haltedOk ↔ exitCode s = some 0) ∧ (s.run = .haltedFault ↔ exitCode s = some 1))

/-- R11: an `OUT` event is rendered as the unsigned decimal digits of its value (here the library's `Nat.digits`)
without leading zeros, "0" for zero, then the byte 0x0A. The rendering is the spec's decision D16. -/
def Obligations.OutputEventIsRenderedInDecimal : Prop :=
  renderEvent 0 = [0x30, 0x0A] ∧
  ∀ v : Word, v ≠ 0 →
    renderEvent v = ((Nat.digits 10 v.toNat).reverse.map fun k => BitVec.ofNat 8 (0x30 + k)) ++ [0x0A]

/-- R9: the lines of a file hold no line feed; with a line feed after each they give the file back, up to a missing
final line feed; the last line is empty only if a line feed ends it; the program drops the empty ones in order. The
splitting is the spec's decision D4. -/
def Obligations.FileSplitsIntoLines : Prop :=
  ∀ bytes : List Byte,
    (∀ l ∈ splitLines bytes, lineFeed ∉ l) ∧
    ((bytes = [] ∨ bytes.getLast? = some lineFeed) → (splitLines bytes).flatMap (· ++ [lineFeed]) = bytes) ∧
    ((bytes ≠ [] ∧ bytes.getLast? ≠ some lineFeed) →
      (splitLines bytes).flatMap (· ++ [lineFeed]) = bytes ++ [lineFeed]) ∧
    programOfFile bytes = (splitLines bytes).filter (· ≠ [])

/-- An instruction's table word is read as that instruction, and placed for the next fetch it stands at PC as the
instruction's line, whatever program stood there; the next step runs it, or, where MAX_LINE_LEN is too small for the
line, is refused (R124). The placing and the reading of a table word through its line under the default
configuration are the model's choices (notes/assumptions/6.md, 13.md); the word's layout is the spec's decision D13,
the limit its decision D21. -/
def Obligations.PlacedTableWordIsRunNext : Prop :=
  ∀ (s : State) (i : Instr), Ready s →
    let placed := s.withFetchWord 40 (encode i).toNat
    decodeTableWord 40 (encode i).toNat = some i ∧ placed.prog[s.pc]? = some (encodeLine i) ∧
    (i.wf s.cfg = true → step placed = exec i placed) ∧
    (i.wf s.cfg = false → Raises .refused placed (step placed))

/-! ## Register instructions -/

/-- R205 and R206: SETv writes its immediate and SETr its source register's value to the destination and advance
PC; no other register, no memory byte, SP, OUT or control state changes, and neither faults. "SETv a 65536" is a
SETv of 0 and "SETv a 65535" one of 65535. -/
def Obligations.SetInstructionsAssign : Prop :=
  (decode .default (ascii ['S', 'E', 'T', 'v', ' ', 'a', ' ', '6', '5', '5', '3', '6']) = .ok (.setV .a 0) ∧
    decode .default (ascii ['S', 'E', 'T', 'v', ' ', 'a', ' ', '6', '5', '5', '3', '5']) = .ok (.setV .a 65535)) ∧
  (∀ (rd : Reg) (imm : Word) (s : State),
    EncodedAs (.setV rd imm) ['S', 'E', 'T', 'v'] [rd.name, decimal imm.toNat] 0 2 0 1 ∧
    ∃ t, exec (.setV rd imm) s = .next t ∧ t.reg rd = imm ∧ t.pc = s.pc + 1 ∧ KeepsRegsBut [rd] s t ∧
      t.sp = s.sp ∧ KeepsMemory s t ∧ t.out = s.out ∧ KeepsControl s t) ∧
  (∀ (rd rs : Reg) (s : State),
    EncodedAs (.setR rd rs) ['S', 'E', 'T', 'r'] [rd.name, rs.name] 1 2 0 0 ∧
    ∃ t, exec (.setR rd rs) s = .next t ∧ t.reg rd = s.reg rs ∧ t.pc = s.pc + 1 ∧ KeepsRegsBut [rd] s t ∧
      t.sp = s.sp ∧ KeepsMemory s t ∧ t.out = s.out ∧ KeepsControl s t)

/-- R207 and R208: ADDv and ADDr write the sum over the integers, clamped at 65535, both operands read before the
write; nothing else but PC changes, and neither faults. "ADDv a 65536" is an ADDv of 0. -/
def Obligations.AddInstructionsSaturate : Prop :=
  decode .default (ascii ['A', 'D', 'D', 'v', ' ', 'a', ' ', '6', '5', '5', '3', '6']) = .ok (.addV .a 0) ∧
  (∀ (rd : Reg) (imm : Word) (s : State),
    EncodedAs (.addV rd imm) ['A', 'D', 'D', 'v'] [rd.name, decimal imm.toNat] 2 2 0 1 ∧
    ∃ t, exec (.addV rd imm) s = .next t ∧ (t.reg rd).toNat = min ((s.reg rd).toNat + imm.toNat) 65535 ∧
      t.pc = s.pc + 1 ∧ KeepsRegsBut [rd] s t ∧ t.sp = s.sp ∧ KeepsMemory s t ∧ t.out = s.out ∧ KeepsControl s t) ∧
  (∀ (rd rs : Reg) (s : State),
    EncodedAs (.addR rd rs) ['A', 'D', 'D', 'r'] [rd.name, rs.name] 3 2 0 0 ∧
    ∃ t, exec (.addR rd rs) s = .next t ∧ (t.reg rd).toNat = min ((s.reg rd).toNat + (s.reg rs).toNat) 65535 ∧
      t.pc = s.pc + 1 ∧ KeepsRegsBut [rd] s t ∧ t.sp = s.sp ∧ KeepsMemory s t ∧ t.out = s.out ∧ KeepsControl s t)

/-- R209 and R210: SUBv and SUBr write the difference over the integers, clamped at 0, both operands read before
the write; nothing else but PC changes, and neither faults. -/
def Obligations.SubInstructionsSaturate : Prop :=
  (∀ (rd : Reg) (imm : Word) (s : State),
    EncodedAs (.subV rd imm) ['S', 'U', 'B', 'v'] [rd.name, decimal imm.toNat] 4 2 0 1 ∧
    ∃ t, exec (.subV rd imm) s = .next t ∧ ((t.reg rd).toNat : Int) = max ((s.reg rd).toNat - imm.toNat : Int) 0 ∧
      t.pc = s.pc + 1 ∧ KeepsRegsBut [rd] s t ∧ t.sp = s.sp ∧ KeepsMemory s t ∧ t.out = s.out ∧ KeepsControl s t) ∧
  (∀ (rd rs : Reg) (s : State),
    EncodedAs (.subR rd rs) ['S', 'U', 'B', 'r'] [rd.name, rs.name] 5 2 0 0 ∧
    ∃ t, exec (.subR rd rs) s = .next t ∧
      ((t.reg rd).toNat : Int) = max ((s.reg rd).toNat - (s.reg rs).toNat : Int) 0 ∧
      t.pc = s.pc + 1 ∧ KeepsRegsBut [rd] s t ∧ t.sp = s.sp ∧ KeepsMemory s t ∧ t.out = s.out ∧ KeepsControl s t)

/-- R203: the wrap test is exact, both functions equal the clamped integer results, saturating add commutes, zero is
neutral on the right, and the two do not cancel across a clamp. The spec derives them from R201 and R202. -/
def Obligations.SaturatingArithmeticLaws : Prop :=
  (∀ x y : Word,
    ((x + y < x) ↔ 65536 ≤ x.toNat + y.toNat) ∧ ((x + y < y) ↔ 65536 ≤ x.toNat + y.toNat) ∧
    (satAdd x y).toNat = min (x.toNat + y.toNat) 65535 ∧
    ((satSub x y).toNat : Int) = max ((x.toNat : Int) - y.toNat) 0 ∧
    satAdd x y = satAdd y x ∧ satAdd x 0 = x ∧ satSub x 0 = x) ∧
  satSub (satAdd 65535 1) 1 = 65534

/-- The source's universal properties S1 and S2 (spec/95_test_vectors.md): two ADDv whose immediates sum above
65535 leave the register at 65535 whatever it held; a SUBv above the register's value leaves it at 0. -/
def Obligations.RepeatedAddsClampAndLargeSubsZero : Prop :=
  ∀ (rd : Reg) (v₁ v₂ : Word) (s : State),
    (65535 < v₁.toNat + v₂.toNat →
      ∃ t, execAll [.addV rd v₁, .addV rd v₂] s = .next t ∧ t.reg rd = 65535 ∧ t.pc = s.pc + 2) ∧
    ((s.reg rd).toNat < v₁.toNat → ∃ t, exec (.subV rd v₁) s = .next t ∧ t.reg rd = 0)

/-- R32: every 2-bit index names a register and the registers' indices are all of them; a write through port W is
seen at its own index and nowhere else, and without the enable nothing is written. The ports are the spec's decision
D17. -/
def Obligations.RegisterFilePortsAddressEveryRegister : Prop :=
  (∀ k : BitVec 2, (Reg.ofIndex k).index = k) ∧ (∀ r : Reg, Reg.ofIndex r.index = r) ∧
  (∀ (f : RegFile) (k j : BitVec 2) (v : Word),
    (f.writePort true k v).readPort j = if j = k then v else f.readPort j) ∧
  (∀ (f : RegFile) (k : BitVec 2) (v : Word), f.writePort false k v = f)

/-! ## Skip and output -/

/-- R240, R243 and R244: IFNZ skips one line when its register IS zero, is refused when the skipped line exists and
is empty, and goes to the next line when the register is nonzero; only PC changes, or CAUSE and RUN. The refusal is
the spec's decision D15. -/
def Obligations.IfnzSkipsOnZero : Prop :=
  ∀ (rs : Reg) (s : State),
    EncodedAs (.ifnz rs) ['I', 'F', 'N', 'Z'] [rs.name] 6 1 0 0 ∧
    (s.reg rs = 0 → s.prog[s.pc + 1]? ≠ some [] → exec (.ifnz rs) s = .next { s with pc := s.pc + 2 }) ∧
    (s.reg rs = 0 → s.prog[s.pc + 1]? = some [] → Raises .refused s (exec (.ifnz rs) s)) ∧
    (s.reg rs ≠ 0 → exec (.ifnz rs) s = .next { s with pc := s.pc + 1 })

/-- R242: a taken skip on the last line makes PC `n + 1`, and the step after it halts with HALTED_OK. -/
def Obligations.SkipAtEndOfInputHalts : Prop :=
  ∀ (rs : Reg) (s : State), Ready s → Fetches s (.ifnz rs) → s.reg rs = 0 → s.pc + 1 = s.prog.length →
    ∃ t, step s = .next t ∧ t.pc = s.prog.length + 1 ∧ step t = .next { t with run := .haltedOk }

/-- R247: PRINT appends its register's value to `OUT` and advances PC; nothing else changes and it never faults. -/
def Obligations.PrintEmitsTheRegister : Prop :=
  ∀ (rs : Reg) (s : State),
    EncodedAs (.print rs) ['P', 'R', 'I', 'N', 'T'] [rs.name] 7 1 0 0 ∧
    exec (.print rs) s = .next { s with out := s.out ++ [s.reg rs], pc := s.pc + 1 }

/-! ## Stack and heap -/

/-- R260 and R73: when two bytes are free, PUSH stores its register little-endian at SP and adds 2 to SP; otherwise
it faults with StackOverflow. -/
def Obligations.PushStoresTheRegister : Prop :=
  ∀ (rs : Reg) (s : State),
    EncodedAs (.push rs) ['P', 'U', 'S', 'H'] [rs.name] 8 1 0 0 ∧ pushAddress s = s.sp ∧
    (s.sp + 2 ≤ s.cfg.stackSize → ∃ t, exec (.push rs) s = .next t ∧
      (Memory.readByte t.mem (pushAddress s)).toNat = (s.reg rs).toNat % 256 ∧
      (Memory.readByte t.mem (pushAddress s + 1)).toNat = (s.reg rs).toNat / 256 ∧
      t.sp = s.sp + 2 ∧ t.pc = s.pc + 1 ∧ KeepsRegsBut [] s t ∧ KeepsMemoryOutsideWord (pushAddress s) s t ∧
      t.out = s.out ∧ KeepsControl s t) ∧
    (s.cfg.stackSize < s.sp + 2 → Raises .stackOverflow s (exec (.push rs) s))

/-- R261, R74 and R77: when SP is at least 2, POP loads the two bytes below SP, little-endian, subtracts 2 from SP
and leaves memory as it was; otherwise it faults with StackUnderflow. -/
def Obligations.PopLoadsTheTop : Prop :=
  ∀ (rd : Reg) (s : State),
    EncodedAs (.pop rd) ['P', 'O', 'P'] [rd.name] 9 1 0 0 ∧ popAddress s = s.sp - 2 ∧
    (2 ≤ s.sp → ∃ t, exec (.pop rd) s = .next t ∧
      (t.reg rd).toNat =
        (Memory.readByte s.mem (s.sp - 2)).toNat + 256 * (Memory.readByte s.mem (s.sp - 1)).toNat ∧
      t.sp + 2 = s.sp ∧ t.pc = s.pc + 1 ∧ KeepsRegsBut [rd] s t ∧ KeepsMemory s t ∧ t.out = s.out ∧
      KeepsControl s t) ∧
    (s.sp < 2 → Raises .stackUnderflow s (exec (.pop rd) s))

/-- R263 with R69, R71 and R72: LOAD at a heap address, even or odd, loads the two bytes there, little-endian, and
changes nothing else but PC; below STACK_SIZE it faults with StackRegionViolationRead, past the last heap word with
HeapAddressOutOfRange. The fault HeapAddressOutOfRange is the spec's decision D12. -/
def Obligations.LoadReadsTheHeapWord : Prop :=
  ∀ (addr : Word) (rd : Reg) (s : State),
    EncodedAs (.load addr rd) ['L', 'O', 'A', 'D'] [decimal addr.toNat, rd.name] 10 2 1 0 ∧
    (s.cfg.stackSize ≤ addr.toNat → addr.toNat + 2 ≤ s.cfg.memSize → ∃ t, exec (.load addr rd) s = .next t ∧
      (t.reg rd).toNat =
        (Memory.readByte s.mem addr.toNat).toNat + 256 * (Memory.readByte s.mem (addr.toNat + 1)).toNat ∧
      t.pc = s.pc + 1 ∧ KeepsRegsBut [rd] s t ∧ t.sp = s.sp ∧ KeepsMemory s t ∧ t.out = s.out ∧ KeepsControl s t) ∧
    (addr.toNat < s.cfg.stackSize → Raises .stackRegionViolationRead s (exec (.load addr rd) s)) ∧
    (s.cfg.stackSize ≤ addr.toNat → s.cfg.memSize < addr.toNat + 2 →
      Raises .heapAddressOutOfRange s (exec (.load addr rd) s))

/-- R264 with R70, R71 and R72: STORE at a heap address, even or odd, stores its register there, little-endian, and
changes nothing else but PC; below STACK_SIZE it faults with StackRegionViolationWrite, past the last heap word with
HeapAddressOutOfRange. The fault HeapAddressOutOfRange is the spec's decision D12. -/
def Obligations.StoreWritesTheHeapWord : Prop :=
  ∀ (addr : Word) (rs : Reg) (s : State),
    EncodedAs (.store addr rs) ['S', 'T', 'O', 'R', 'E'] [decimal addr.toNat, rs.name] 11 2 1 0 ∧
    heapAddress addr = addr.toNat ∧
    (s.cfg.stackSize ≤ addr.toNat → addr.toNat + 2 ≤ s.cfg.memSize → ∃ t, exec (.store addr rs) s = .next t ∧
      (Memory.readByte t.mem (heapAddress addr)).toNat = (s.reg rs).toNat % 256 ∧
      (Memory.readByte t.mem (heapAddress addr + 1)).toNat = (s.reg rs).toNat / 256 ∧
      t.pc = s.pc + 1 ∧ KeepsRegsBut [] s t ∧ t.sp = s.sp ∧ KeepsMemoryOutsideWord (heapAddress addr) s t ∧
      t.out = s.out ∧ KeepsControl s t) ∧
    (addr.toNat < s.cfg.stackSize → Raises .stackRegionViolationWrite s (exec (.store addr rs) s)) ∧
    (s.cfg.stackSize ≤ addr.toNat → s.cfg.memSize < addr.toNat + 2 →
      Raises .heapAddressOutOfRange s (exec (.store addr rs) s))

/-- R262: a PUSH, any instructions that are neither PUSH nor POP, then a POP: the POP's register gets the pushed
value and SP is as before the PUSH. The spec derives it from R260 and R261. -/
def Obligations.PopReturnsThePushedValue : Prop :=
  ∀ (rs rd : Reg) (is : List Instr) (s s₁ s₂ : State), s.sp + 2 ≤ s.cfg.stackSize →
    exec (.push rs) s = .next s₁ → (∀ i ∈ is, isStackInstr i = false) → execAll is s₁ = .next s₂ →
    ∃ t, exec (.pop rd) s₂ = .next t ∧ t.reg rd = s.reg rs ∧ t.sp = s.sp

/-- R265: a STORE, any instructions with no STORE overlapping its two bytes, then a LOAD at the same address: the
LOAD's register gets the stored value. The spec derives it from R263, R264 and R63. -/
def Obligations.LoadReturnsTheStoredValue : Prop :=
  ∀ (addr : Word) (rs rd : Reg) (is : List Instr) (s s₁ s₂ : State),
    s.cfg.stackSize ≤ addr.toNat → addr.toNat + 2 ≤ s.cfg.memSize →
    exec (.store addr rs) s = .next s₁ → (∀ i ∈ is, storesNear addr i = false) → execAll is s₁ = .next s₂ →
    ∃ t, exec (.load addr rd) s₂ = .next t ∧ t.reg rd = s.reg rs

/-- R64: a LOAD one byte above a STORE sees the stored high byte as its low byte and the byte after as its high
byte. The spec derives it from R63. -/
def Obligations.OverlappingHeapWordsAreExactPerByte : Prop :=
  ∀ (addr : Word) (rs rd : Reg) (s : State),
    s.cfg.stackSize ≤ addr.toNat → addr.toNat + 3 ≤ s.cfg.memSize → addr.toNat + 1 < 65536 →
    ∃ t, execAll [.store addr rs, .load (addr + 1) rd] s = .next t ∧
      (t.reg rd).toNat = (s.reg rs).toNat / 256 + 256 * (Memory.readByte s.mem (addr.toNat + 2)).toNat

/-- R75: from an empty stack exactly `STACK_SIZE / 2` pushes in a row complete, and the next faults with
StackOverflow. The spec derives it from R73, R74 and R33. -/
def Obligations.StackHoldsHalfItsSizeInWords : Prop :=
  ∀ (rs : Reg) (s : State), s.sp = 0 → s.run = .running →
    (∀ k, k ≤ s.cfg.stackSize / 2 →
      ∃ t, execAll (List.replicate k (.push rs)) s = .next t ∧ t.run = .running ∧ t.sp = 2 * k) ∧
    (∀ t, execAll (List.replicate (s.cfg.stackSize / 2) (.push rs)) s = .next t →
      Raises .stackOverflow t (exec (.push rs) t))
end

