-- ==== Sys2Proof/Laws/Alu.lean ====
section
/-! SUPPORT. What the saturating ALU computes, over the integers (spec/41_register_arith.md R201 to R203). -/

namespace Sys2Proof.Machine

@[simp] theorem alu_add (x y : Word) : alu .add x y = satAdd x y := rfl

@[simp] theorem alu_sub (x y : Word) : alu .sub x y = satSub x y := rfl

/-- The sum clamped at 65535. -/
theorem satAdd_toNat (x y : Word) : (satAdd x y).toNat = min (x.toNat + y.toNat) 65535 := by
  have := x.isLt
  have := y.isLt
  unfold satAdd addClamps
  by_cases h : 65536 ≤ x.toNat + y.toNat
  · have hlt : x + y < x := by
      rw [BitVec.lt_def, BitVec.toNat_add]
      omega
    simp [hlt]
    omega
  · have hx : ¬ x + y < x := by
      rw [BitVec.lt_def, BitVec.toNat_add]
      omega
    have hy : ¬ x + y < y := by
      rw [BitVec.lt_def, BitVec.toNat_add]
      omega
    simp [hx, hy]
    omega

/-- The difference clamped at 0. -/
theorem satSub_toNat (x y : Word) : (satSub x y).toNat = x.toNat - y.toNat := by
  unfold satSub subClamps
  by_cases h : x < y
  · have := BitVec.lt_def.1 h
    simp [h]
    omega
  · have hle : y ≤ x := BitVec.le_def.2 (Nat.le_of_not_lt fun e => h (BitVec.lt_def.2 e))
    simp [h, BitVec.toNat_sub_of_le hle]

end Sys2Proof.Machine
end

