-- ==== Sys2Proof/Laws/Decode.lean ====
section
/-! SUPPORT. The laws of the decoder and the encoder: name and code tables, the layout of the word, tokens, and
decimal text. -/

namespace Sys2Proof

/-! ### Tables -/

/-- A search by an injective key in a complete list finds exactly the entry with that key. -/
theorem find_key_eq_some_iff {α β : Type} [DecidableEq β] {l : List α} {key : α → β} (hall : ∀ x, x ∈ l)
    (hinj : Function.Injective key) {t : β} {x : α} :
    l.find? (fun y => decide (key y = t)) = some x ↔ t = key x := by
  constructor
  · intro h
    have := List.find?_some h
    exact (of_decide_eq_true this).symm
  · rintro rfl
    have hsome : (l.find? fun y => decide (key y = key x)).isSome :=
      List.find?_isSome.2 ⟨x, hall x, by simp⟩
    obtain ⟨y, hy⟩ := Option.isSome_iff_exists.1 hsome
    have hkey : key y = key x := by simpa using List.find?_some hy
    rw [hy, hinj hkey]

/-- A search by a key finds nothing exactly when no entry of a complete list has that key. -/
theorem find_key_eq_none_iff {α β : Type} [DecidableEq β] {l : List α} {key : α → β} (hall : ∀ x, x ∈ l) {t : β} :
    l.find? (fun y => decide (key y = t)) = none ↔ ∀ x, t ≠ key x := by
  rw [List.find?_eq_none]
  constructor
  · intro h x e
    exact absurd (decide_eq_true e.symm) (h x (hall x))
  · intro h x _ e
    exact h x (of_decide_eq_true e).symm

theorem Reg.mem_all (r : Reg) : r ∈ [Reg.a, Reg.b, Reg.c, Reg.d] := by cases r <;> decide

theorem Reg.name_injective : Function.Injective Reg.name := by
  intro r s; cases r <;> cases s <;> decide

theorem Reg.value_injective : Function.Injective Reg.value := by
  intro r s; cases r <;> cases s <;> decide

theorem Opc.mem_all (o : Opc) : o ∈ Opc.all := by cases o <;> decide

theorem Opc.name_injective : Function.Injective Opc.name := by
  intro o p; cases o <;> cases p <;> decide

theorem Opc.code_injective : Function.Injective Opc.code := by
  intro o p; cases o <;> cases p <;> decide

theorem Reg.ofName_eq_some_iff {t : Token} {r : Reg} : Reg.ofName t = some r ↔ t = r.name :=
  find_key_eq_some_iff Reg.mem_all Reg.name_injective

theorem Reg.ofName_eq_none_iff {t : Token} : Reg.ofName t = none ↔ ∀ r : Reg, t ≠ r.name :=
  find_key_eq_none_iff Reg.mem_all

theorem Reg.ofValue_eq_some_iff {v : Word} {r : Reg} : Reg.ofValue v = some r ↔ v = r.value :=
  find_key_eq_some_iff Reg.mem_all Reg.value_injective

theorem Reg.ofValue_eq_none_iff {v : Word} : Reg.ofValue v = none ↔ ∀ r : Reg, v ≠ r.value :=
  find_key_eq_none_iff Reg.mem_all

theorem Opc.ofName_eq_some_iff {t : Token} {o : Opc} : Opc.ofName t = some o ↔ t = o.name :=
  find_key_eq_some_iff Opc.mem_all Opc.name_injective

theorem Opc.ofName_eq_none_iff {t : Token} : Opc.ofName t = none ↔ ∀ o : Opc, t ≠ o.name :=
  find_key_eq_none_iff Opc.mem_all

theorem Opc.ofCode_eq_some_iff {k : BitVec 4} {o : Opc} : Opc.ofCode k = some o ↔ k = o.code :=
  find_key_eq_some_iff Opc.mem_all Opc.code_injective

theorem Opc.ofCode_eq_none_iff {k : BitVec 4} : Opc.ofCode k = none ↔ ∀ o : Opc, k ≠ o.code :=
  find_key_eq_none_iff Opc.mem_all

@[simp] theorem Reg.ofName_name (r : Reg) : Reg.ofName r.name = some r := Reg.ofName_eq_some_iff.2 rfl

@[simp] theorem Reg.ofValue_value (r : Reg) : Reg.ofValue r.value = some r := Reg.ofValue_eq_some_iff.2 rfl

@[simp] theorem Opc.ofName_name (o : Opc) : Opc.ofName o.name = some o := Opc.ofName_eq_some_iff.2 rfl

@[simp] theorem Opc.ofCode_code (o : Opc) : Opc.ofCode o.code = some o := Opc.ofCode_eq_some_iff.2 rfl

/-- The register values are the values below 4 (R114). -/
theorem Reg.exists_value_iff {v : Word} : (∃ r : Reg, v = r.value) ↔ v < 4 := by
  constructor
  · rintro ⟨r, rfl⟩
    cases r <;> decide
  · intro h
    have hv : v.toNat < 4 := h
    have : v = 0 ∨ v = 1 ∨ v = 2 ∨ v = 3 := by
      have : v.toNat = 0 ∨ v.toNat = 1 ∨ v.toNat = 2 ∨ v.toNat = 3 := by omega
      rcases this with e | e | e | e
      · exact .inl (BitVec.eq_of_toNat_eq e)
      · exact .inr (.inl (BitVec.eq_of_toNat_eq e))
      · exact .inr (.inr (.inl (BitVec.eq_of_toNat_eq e)))
      · exact .inr (.inr (.inr (BitVec.eq_of_toNat_eq e)))
    rcases this with rfl | rfl | rfl | rfl
    exacts [⟨.a, rfl⟩, ⟨.b, rfl⟩, ⟨.c, rfl⟩, ⟨.d, rfl⟩]

/-- The opcode codes are the codes below 12 (R113, R117). -/
theorem Opc.ofCode_eq_none_iff_reserved {k : BitVec 4} : Opc.ofCode k = none ↔ 12 ≤ k.toNat := by
  revert k; decide

/-! ### The layout of the word (R112) -/

theorem DiwFields.unpack_pack (f : DiwFields) : DiwFields.unpack f.pack = f := by
  obtain ⟨o, n, t1, v1, t2, v2⟩ := f
  simp only [DiwFields.unpack, DiwFields.pack, DiwFields.mk.injEq]
  refine ⟨?_, ?_, ?_, ?_, ?_, ?_⟩
  all_goals
    apply BitVec.eq_of_getLsbD_eq
    intro i hi
    simp only [BitVec.getLsbD_extractLsb', BitVec.getLsbD_append, hi, decide_true, Bool.true_and]
  · rw [if_neg (by omega), if_neg (by omega), if_neg (by omega), if_neg (by omega), if_neg (by omega)]
    congr 1; omega
  · rw [if_neg (by omega), if_neg (by omega), if_neg (by omega), if_neg (by omega), if_pos (by omega)]
    congr 1; omega
  · rw [if_neg (by omega), if_neg (by omega), if_neg (by omega), if_pos (by omega)]
    congr 1; omega
  · rw [if_neg (by omega), if_neg (by omega), if_pos (by omega)]
    congr 1; omega
  · rw [if_neg (by omega), if_pos (by omega)]
    congr 1; omega
  · rw [if_pos (by omega)]
    congr 1; omega

theorem DiwFields.pack_unpack (w : BitVec 40) : (DiwFields.unpack w).pack = w := by
  apply BitVec.eq_of_getLsbD_eq
  intro i hi
  simp only [DiwFields.unpack, DiwFields.pack, BitVec.getLsbD_append, BitVec.getLsbD_extractLsb']
  split
  · simp_all
  · split
    · rename_i h1 h2
      have : 16 + (i - 16) = i := by omega
      simp [h2, this]
    · split
      · rename_i h1 h2 h3
        have : 17 + (i - 16 - 1) = i := by omega
        simp [h3, this]
      · split
        · rename_i h1 h2 h3 h4
          have : 33 + (i - 16 - 1 - 16) = i := by omega
          simp [h4, this]
        · split
          · rename_i h1 h2 h3 h4 h5
            have : 34 + (i - 16 - 1 - 16 - 1) = i := by omega
            simp [h5, this]
          · have h6 : i - 16 - 1 - 16 - 1 - 2 < 4 := by omega
            have : 36 + (i - 16 - 1 - 16 - 1 - 2) = i := by omega
            simp [h6, this]

@[simp] theorem unpack_encode (i : Instr) : DiwFields.unpack (encode i) = encodeFields i :=
  DiwFields.unpack_pack _

/-! ### Tokens -/

theorem tokens_ne_nil (line : Line) : tokens line ≠ [] := by
  cases line with
  | nil => simp [tokens]
  | cons b rest =>
    rw [tokens]
    split
    · simp
    · split <;> simp

/-- A piece without a space, before a space, is the first token. -/
theorem tokens_append_space {t : Token} (h : space ∉ t) (rest : Line) :
    tokens (t ++ space :: rest) = t :: tokens rest := by
  induction t with
  | nil => simp [tokens]
  | cons b t ih =>
    simp only [List.mem_cons, not_or] at h
    rw [List.cons_append, tokens, if_neg (Ne.symm h.1), ih h.2]

/-- A line without a space is one token. -/
theorem tokens_of_no_space {t : Token} (h : space ∉ t) : tokens t = [t] := by
  induction t with
  | nil => rfl
  | cons b t ih =>
    simp only [List.mem_cons, not_or] at h
    rw [tokens, if_neg (Ne.symm h.1), ih h.2]

/-- Splitting undoes joining by single spaces (R101, R120). -/
theorem tokens_joinTokens {ts : List Token} (hne : ts ≠ []) (h : ∀ t ∈ ts, space ∉ t) :
    tokens (joinTokens ts) = ts := by
  induction ts with
  | nil => exact absurd rfl hne
  | cons t ts ih =>
    cases ts with
    | nil => exact tokens_of_no_space (h t (by simp))
    | cons u us =>
      rw [joinTokens, tokens_append_space (h t (by simp)), ih (by simp) fun x hx => h x (by simp [hx])]
      simp

/-- A byte other than a space goes in front of the first token. -/
theorem tokens_cons_of_ne {b : Byte} (hb : b ≠ space) (rest : Line) :
    ∃ t ts, tokens rest = t :: ts ∧ tokens (b :: rest) = (b :: t) :: ts := by
  obtain ⟨t, ts, h⟩ := List.exists_cons_of_ne_nil (tokens_ne_nil rest)
  exact ⟨t, ts, h, by rw [tokens, if_neg hb, h]⟩

/-- No token holds a space (R101). -/
theorem space_notMem_of_mem_tokens {line : Line} : ∀ t ∈ tokens line, space ∉ t := by
  induction line with
  | nil => simp [tokens]
  | cons b rest ih =>
    by_cases hb : b = space
    · rw [tokens, if_pos hb]
      simpa using ih
    · obtain ⟨t, ts, h, e⟩ := tokens_cons_of_ne hb rest
      rw [h] at ih
      rw [e]
      simp only [List.mem_cons, forall_eq_or_imp, not_or] at ih ⊢
      exact ⟨⟨Ne.symm hb, ih.1⟩, ih.2⟩

/-- A byte in front of the first token is a byte in front of the line. -/
theorem joinTokens_cons_head (b : Byte) (t : Token) (ts : List Token) :
    joinTokens ((b :: t) :: ts) = b :: joinTokens (t :: ts) := by
  cases ts <;> simp [joinTokens]

/-- Joining by single spaces undoes splitting (R101). -/
theorem joinTokens_tokens (line : Line) : joinTokens (tokens line) = line := by
  induction line with
  | nil => rfl
  | cons b rest ih =>
    by_cases hb : b = space
    · obtain ⟨t, ts, h⟩ := List.exists_cons_of_ne_nil (tokens_ne_nil rest)
      rw [tokens, if_pos hb, h, joinTokens, ← h, ih, hb, List.nil_append]
      simp
    · obtain ⟨t, ts, h, e⟩ := tokens_cons_of_ne hb rest
      rw [e, joinTokens_cons_head, ← h, ih]

/-- Joining is the library's intercalation of the space. -/
theorem joinTokens_eq_intercalate (ts : List Token) : joinTokens ts = List.intercalate [space] ts := by
  induction ts with
  | nil => rfl
  | cons t ts ih =>
    cases ts with
    | nil => simp [joinTokens, List.intercalate]
    | cons u us =>
      rw [joinTokens, ih, List.intercalate_cons_cons]
      · simp
      · simp

/-- A line made of a mnemonic and operands without spaces, within MAX_LINE_LEN, decodes by its tokens. -/
theorem decodeLine_joinTokens {c : Config} {m : Token} {ts : List Token} (h : ∀ t ∈ m :: ts, space ∉ t)
    (hlen : lineTooLong c (joinTokens (m :: ts)) = false) :
    decodeLine c (joinTokens (m :: ts)) =
      match decodeTokens c m ts with
      | .error e => .error e
      | .ok f => .ok f.pack := by
  rw [decodeLine, hlen, tokens_joinTokens (by simp) h]
  rfl

theorem Opc.space_not_mem_name (o : Opc) : space ∉ o.name := by cases o <;> decide

theorem Reg.space_not_mem_name (r : Reg) : space ∉ r.name := by cases r <;> decide

/-! ### Decimal text -/

theorem digit_toNat {n : Nat} (h : n < 10) : (digit n).toNat = 0x30 + n := by
  simp [digit]; omega

theorem isDigit_iff (b : Byte) : isDigit b = true ↔ 0x30 ≤ b.toNat ∧ b.toNat ≤ 0x39 := by
  simp [isDigit, BitVec.le_def]

theorem isDigit_digit {n : Nat} (h : n < 10) : isDigit (digit n) = true := by
  rw [isDigit_iff, digit_toNat h]; omega

theorem digits_ne_nil (fuel n : Nat) : digits fuel n ≠ [] := by
  cases fuel with
  | zero => simp [digits]
  | succ k => rw [digits]; split <;> simp

theorem isDigit_of_mem_digits {fuel n : Nat} {b : Byte} (h : b ∈ digits fuel n) : isDigit b = true := by
  induction fuel generalizing n with
  | zero =>
    simp only [digits, List.mem_singleton] at h
    exact h ▸ isDigit_digit (Nat.mod_lt _ (by omega))
  | succ k ih =>
    rw [digits] at h
    split at h
    · rename_i hn
      exact List.mem_singleton.1 h ▸ isDigit_digit hn
    · rcases List.mem_append.1 h with h | h
      · exact ih h
      · exact List.mem_singleton.1 h ▸ isDigit_digit (Nat.mod_lt _ (by omega))

theorem decimalValue_append_digit (t : Token) {k : Nat} (h : k < 10) :
    decimalValue (t ++ [digit k]) = 10 * decimalValue t + k := by
  simp [decimalValue, List.foldl_append, digit_toNat h]

theorem decimalValue_digits (fuel n : Nat) (h : n ≤ fuel) : decimalValue (digits fuel n) = n := by
  induction fuel generalizing n with
  | zero =>
    have : n = 0 := by omega
    subst this
    decide
  | succ k ih =>
    rw [digits]
    split
    · rename_i hn
      simpa [decimalValue] using decimalValue_append_digit [] hn
    · rw [decimalValue_append_digit _ (Nat.mod_lt _ (by omega)), ih _ (by omega)]
      omega

theorem decimal_ne_nil (n : Nat) : decimal n ≠ [] := digits_ne_nil n n

theorem decimal_all_digits (n : Nat) : (decimal n).all isDigit = true :=
  List.all_eq_true.2 fun _ h => isDigit_of_mem_digits h

theorem decimalValue_decimal (n : Nat) : decimalValue (decimal n) = n := decimalValue_digits n n (Nat.le_refl n)

theorem space_not_mem_decimal (n : Nat) : space ∉ decimal n := fun h =>
  absurd (isDigit_of_mem_digits h) (by decide)

/-- Decimal text is no register name. -/
theorem ofName_decimal (n : Nat) : Reg.ofName (decimal n) = none := by
  rw [Reg.ofName_eq_none_iff]
  intro r e
  have hd := decimal_all_digits n
  rw [e] at hd
  revert hd
  cases r <;> decide

/-- The decimal text of a number parses to the number mod 65536, or is malformed at the literal limit. -/
theorem parseImm_decimal (c : Config) (n : Nat) :
    parseImm c (decimal n) =
      if n < c.immLiteralLimit then .ok (BitVec.ofNat 16 n) else .error .malformedImmediate := by
  rw [parseImm, decimalValue_decimal]
  by_cases h : n < c.immLiteralLimit
  · rw [if_pos ⟨decimal_ne_nil n, decimal_all_digits n, h⟩, if_pos h]
  · rw [if_neg fun hh => h hh.2.2, if_neg h]

@[simp] theorem classify_name (c : Config) (r : Reg) : classify c r.name = .ok (0, r.value) := by
  simp [classify, OperandKind.tag]

theorem classify_decimal (c : Config) {n : Nat} (h : n < c.immLiteralLimit) :
    classify c (decimal n) = .ok (1, BitVec.ofNat 16 n) := by
  simp [classify, ofName_decimal, parseImm_decimal, h, OperandKind.tag]

/-! ### What the decoder's stages answer -/

theorem parseImm_error {c : Config} {t : Token} {e : Cause} (h : parseImm c t = .error e) :
    e = .malformedImmediate := by
  unfold parseImm at h
  split at h
  · simp at h
  · injection h with h
    exact h.symm

/-- The only cause an operand token raises (R106). -/
theorem classifyAt_error {c : Config} {ops : List Token} {j : Nat} {e : Cause}
    (h : classifyAt c ops j = .error e) : e = .malformedImmediate := by
  unfold classifyAt at h
  split at h
  · unfold classify at h
    split at h
    · simp at h
    · split at h
      · simp at h
      · rename_i e' he
        injection h with h
        exact h ▸ parseImm_error he
  · simp at h

/-- What a classified position holds: a register, an immediate, or nothing. -/
theorem classifyAt_cases {c : Config} {ops : List Token} {j : Nat} {p : BitVec 1 × Word}
    (h : classifyAt c ops j = .ok p) :
    (∃ r : Reg, ops[j]? = some r.name ∧ p = (0, r.value)) ∨
    (∃ t v, ops[j]? = some t ∧ (∀ r : Reg, t ≠ r.name) ∧ parseImm c t = .ok v ∧ p = (1, v)) ∨
    (ops[j]? = none ∧ p = (0, 0)) := by
  unfold classifyAt at h
  split at h
  · rename_i t ht
    unfold classify at h
    split at h
    · rename_i r hr
      injection h with h
      exact .inl ⟨r, by rw [ht, Reg.ofName_eq_some_iff.1 hr], h.symm⟩
    · rename_i hr
      split at h
      · rename_i v hv
        injection h with h
        exact .inr (.inl ⟨t, v, ht, Reg.ofName_eq_none_iff.1 hr, hv, h.symm⟩)
      · simp at h
  · rename_i ht
    injection h with h
    exact .inr (.inr ⟨ht, h.symm⟩)

/-- What a decoded line is: a known mnemonic, classified operands, and the word of both (R116). -/
theorem decodeLine_ok {c : Config} {line : Line} {w : BitVec 40} (h : decodeLine c line = .ok w) :
    ∃ (o : Opc) (ops : List Token) (p q : BitVec 1 × Word), lineTooLong c line = false ∧ tokens line = o.name :: ops ∧
      classifyAt c ops 0 = .ok p ∧ classifyAt c ops 1 = .ok q ∧
      DiwFields.unpack w = ⟨o.code, BitVec.ofNat 2 (min ops.length 3), p.1, p.2, q.1, q.2⟩ := by
  unfold decodeLine at h
  split at h
  · simp at h
  · rename_i hlen
    split at h
    · simp at h
    · rename_i m ops ht
      split at h
      · simp at h
      · rename_i f hf
        injection h with h
        subst h
        unfold decodeTokens at hf
        split at hf
        · simp at hf
        · rename_i o ho
          split at hf
          · simp at hf
          · rename_i p hp
            split at hf
            · simp at hf
            · rename_i q hq
              injection hf with hf
              subst hf
              rw [Opc.ofName_eq_some_iff] at ho
              exact ⟨o, ops, p, q, by simpa using hlen, by rw [ht, ho], hp, hq, DiwFields.unpack_pack _⟩

/-- Why a line does not decode: its length, its mnemonic, or an operand token (R109). -/
theorem decodeLine_error {c : Config} {line : Line} {e : Cause} (h : decodeLine c line = .error e) :
    (lineTooLong c line = true ∧ e = .refused) ∨
    (lineTooLong c line = false ∧ (∀ o : Opc, (tokens line)[0]? ≠ some o.name) ∧ e = .unknownOpcode) ∨
    (lineTooLong c line = false ∧ (∃ o : Opc, (tokens line)[0]? = some o.name) ∧ e = .malformedImmediate) := by
  unfold decodeLine at h
  split at h
  · rename_i hlen
    injection h with h
    exact .inl ⟨hlen, h.symm⟩
  · rename_i hlen
    have hlen : lineTooLong c line = false := by simpa using hlen
    split at h
    · rename_i ht
      exact absurd ht (tokens_ne_nil line)
    · rename_i m ops ht
      rw [ht]
      split at h
      · rename_i e' hf
        injection h with h
        subst h
        unfold decodeTokens at hf
        split at hf
        · rename_i ho
          injection hf with hf
          exact .inr (.inl ⟨hlen, fun o he => Opc.ofName_eq_none_iff.1 ho o (by simpa using he), hf.symm⟩)
        · rename_i o ho
          have hm : ∃ o : Opc, (m :: ops)[0]? = some o.name := ⟨o, by simpa using Opc.ofName_eq_some_iff.1 ho⟩
          split at hf
          · rename_i he
            injection hf with hf
            exact .inr (.inr ⟨hlen, hm, hf ▸ classifyAt_error he⟩)
          · split at hf
            · rename_i he
              injection hf with hf
              exact .inr (.inr ⟨hlen, hm, hf ▸ classifyAt_error he⟩)
            · simp at hf
      · simp at h

end Sys2Proof
end

