-- ==== Sys2Proof/Laws/Memory.lean ====
section
/-! SUPPORT. The laws of data memory: what a read after a write gives, and that every write keeps the canonical
form. -/

namespace Sys2Proof.Machine

@[simp] theorem Memory.readByte_nil (a : Nat) : Memory.readByte [] a = unlistedByte := rfl

@[simp] theorem Memory.readByte_cons (cell : Host.Cell) (m : Memory) (a : Nat) :
    Memory.readByte (cell :: m) a = if cell.1 = a then cell.2 else Memory.readByte m a := rfl

@[simp] theorem Memory.insertCell_nil (a : Nat) (v : Byte) : Memory.insertCell a v [] = [(a, v)] := rfl

@[simp] theorem Memory.insertCell_cons (a : Nat) (v : Byte) (cell : Host.Cell) (m : Memory) :
    Memory.insertCell a v (cell :: m) =
      if a < cell.1 then (a, v) :: cell :: m else cell :: Memory.insertCell a v m := rfl

/-! ### Reads -/

theorem Memory.readByte_eraseCell (m : Memory) (a b : Nat) :
    Memory.readByte (Memory.eraseCell m a) b = if b = a then unlistedByte else Memory.readByte m b := by
  induction m with
  | nil => simp [Memory.eraseCell]
  | cons cell m ih =>
    simp only [Memory.eraseCell, List.filter_cons] at ih ⊢
    by_cases h : cell.1 = a
    · by_cases hb : b = a
      · simpa [h, hb] using ih
      · have : ¬ a = b := fun e => hb e.symm
        simpa [h, hb, this] using ih
    · by_cases hb : cell.1 = b
      · have : ¬ b = a := fun e => h (hb.trans e)
        simp [hb, this]
      · rw [if_pos (by simpa using h), Memory.readByte_cons, Memory.readByte_cons, if_neg hb, if_neg hb]
        exact ih

theorem Memory.readByte_insertCell (m : Memory) (a b : Nat) (v : Byte) (h : ∀ cell ∈ m, cell.1 ≠ a) :
    Memory.readByte (Memory.insertCell a v m) b = if b = a then v else Memory.readByte m b := by
  induction m with
  | nil => simp [eq_comm (a := a)]
  | cons cell m ih =>
    have hc : cell.1 ≠ a := h cell (by simp)
    have ih := ih fun x hx => h x (by simp [hx])
    rw [Memory.insertCell_cons]
    split
    · simp only [Memory.readByte_cons, eq_comm (a := a)]
    · rw [Memory.readByte_cons, Memory.readByte_cons, ih]
      by_cases hb : b = a
      · simp [hb, hc]
      · simp [hb]

theorem Memory.ne_of_mem_eraseCell {m : Memory} {a : Nat} {cell : Host.Cell} (h : cell ∈ Memory.eraseCell m a) :
    cell.1 ≠ a := by
  simp only [Memory.eraseCell, List.mem_filter, decide_eq_true_eq] at h
  exact h.2

/-- A byte read after a byte write: the value written at its address, the old value elsewhere. -/
theorem Memory.readByte_writeByte (m : Memory) (a b : Nat) (v : Byte) :
    Memory.readByte (Memory.writeByte m a v) b = if b = a then v else Memory.readByte m b := by
  unfold Memory.writeByte
  split
  · rename_i hv
    rw [Memory.readByte_eraseCell, hv]
  · rw [Memory.readByte_insertCell _ _ _ _ fun cell h => Memory.ne_of_mem_eraseCell h, Memory.readByte_eraseCell]
    split <;> rfl

/-- A byte read after a word write: its low byte, its high byte, or the old value. -/
theorem Memory.readByte_writeWord (m : Memory) (a b : Nat) (v : Word) :
    Memory.readByte (Memory.writeWord m a v) b =
      if b = a + 1 then highByte v else if b = a then lowByte v else Memory.readByte m b := by
  unfold Memory.writeWord
  rw [Memory.readByte_writeByte, Memory.readByte_writeByte]

theorem Memory.readByte_writeWord_outside (m : Memory) {a b : Nat} (v : Word) (h0 : b ≠ a) (h1 : b ≠ a + 1) :
    Memory.readByte (Memory.writeWord m a v) b = Memory.readByte m b := by
  rw [Memory.readByte_writeWord, if_neg h1, if_neg h0]

theorem highByte_append_lowByte (v : Word) : highByte v ++ lowByte v = v := by
  unfold highByte lowByte
  rw [BitVec.extractLsb'_append_extractLsb'_eq_extractLsb' (by rfl)]
  exact BitVec.extractLsb'_eq_self

theorem lowByte_toNat (v : Word) : (lowByte v).toNat = v.toNat % 256 := by
  simp [lowByte]

theorem highByte_toNat (v : Word) : (highByte v).toNat = v.toNat / 256 := by
  have := v.isLt
  simp [highByte, Nat.shiftRight_eq_div_pow]
  omega

/-- `MemRead` is little-endian: `MEM[addr] + 256 * MEM[addr+1]` (spec/20_memory.md R63). -/
theorem Memory.readWord_toNat (m : Memory) (a : Nat) :
    (Memory.readWord m a).toNat = (Memory.readByte m a).toNat + 256 * (Memory.readByte m (a + 1)).toNat := by
  have := (Memory.readByte m a).isLt
  simp only [Memory.readWord, BitVec.toNat_append]
  rw [← Nat.shiftLeft_add_eq_or_of_lt this, Nat.shiftLeft_eq]
  omega

/-- A word read where it was written. -/
theorem Memory.readWord_writeWord_same (m : Memory) (a : Nat) (v : Word) :
    Memory.readWord (Memory.writeWord m a v) a = v := by
  simp [Memory.readWord, Memory.readByte_writeWord, highByte_append_lowByte]

/-- A word reads alike in memories that agree on its two bytes. -/
theorem Memory.readWord_congr {m n : Memory} {a : Nat} (h0 : Memory.readByte m a = Memory.readByte n a)
    (h1 : Memory.readByte m (a + 1) = Memory.readByte n (a + 1)) :
    Memory.readWord m a = Memory.readWord n a := by
  rw [Memory.readWord, Memory.readWord, h0, h1]

/-! ### The canonical form -/

theorem Memory.wf_iff (m : Memory) :
    Memory.wf m = true ↔ m.Pairwise (fun p q => p.1 < q.1) ∧ ∀ cell ∈ m, cell.2 ≠ unlistedByte := by
  simp [Memory.wf]

theorem Memory.within_iff (n : Nat) (m : Memory) : Memory.within n m = true ↔ ∀ cell ∈ m, cell.1 < n := by
  simp [Memory.within]

theorem Memory.mem_insertCell {m : Memory} {a : Nat} {v : Byte} {cell : Host.Cell} :
    cell ∈ Memory.insertCell a v m ↔ cell = (a, v) ∨ cell ∈ m := by
  induction m with
  | nil => simp
  | cons c m ih =>
    rw [Memory.insertCell_cons]
    split
    · simp
    · simp [ih, or_left_comm]

theorem Memory.pairwise_insertCell {m : Memory} {a : Nat} {v : Byte} (h : m.Pairwise fun p q => p.1 < q.1)
    (ha : ∀ cell ∈ m, cell.1 ≠ a) : (Memory.insertCell a v m).Pairwise fun p q => p.1 < q.1 := by
  induction m with
  | nil => simp
  | cons c m ih =>
    have hc : c.1 ≠ a := ha c (by simp)
    rw [List.pairwise_cons] at h
    rw [Memory.insertCell_cons]
    split
    · rename_i hlt
      refine List.pairwise_cons.2 ⟨fun x hx => ?_, List.pairwise_cons.2 h⟩
      rcases List.mem_cons.1 hx with rfl | hx
      · exact hlt
      · exact Nat.lt_trans hlt (h.1 x hx)
    · rename_i hge
      refine List.pairwise_cons.2 ⟨fun x hx => ?_, ih h.2 fun x hx => ha x (by simp [hx])⟩
      rcases Memory.mem_insertCell.1 hx with rfl | hx
      · show c.1 < a
        omega
      · exact h.1 x hx

/-- A byte write keeps the canonical form. -/
theorem Memory.writeByte_wf {m : Memory} (h : Memory.wf m = true) (a : Nat) (v : Byte) :
    Memory.wf (Memory.writeByte m a v) = true := by
  obtain ⟨hp, hv⟩ := (Memory.wf_iff m).1 h
  have he : (Memory.eraseCell m a).Pairwise (fun p q => p.1 < q.1) := hp.filter _
  have hev : ∀ cell ∈ Memory.eraseCell m a, cell.2 ≠ unlistedByte := fun cell hc =>
    hv cell (List.mem_of_mem_filter hc)
  rw [Memory.wf_iff, Memory.writeByte]
  split
  · exact ⟨he, hev⟩
  · rename_i hne
    refine ⟨Memory.pairwise_insertCell he fun cell hc => Memory.ne_of_mem_eraseCell hc, fun cell hc => ?_⟩
    rcases Memory.mem_insertCell.1 hc with rfl | hc
    · exact hne
    · exact hev cell hc

/-- A byte write inside a memory of `n` bytes lists no byte outside it. -/
theorem Memory.writeByte_within {m : Memory} {n a : Nat} (h : Memory.within n m = true) (ha : a < n) (v : Byte) :
    Memory.within n (Memory.writeByte m a v) = true := by
  rw [Memory.within_iff] at h ⊢
  have hev : ∀ cell ∈ Memory.eraseCell m a, cell.1 < n := fun cell hc => h cell (List.mem_of_mem_filter hc)
  rw [Memory.writeByte]
  split
  · exact hev
  · intro cell hc
    rcases Memory.mem_insertCell.1 hc with rfl | hc
    · exact ha
    · exact hev cell hc

/-- A word write keeps the canonical form. -/
theorem Memory.writeWord_wf {m : Memory} (h : Memory.wf m = true) (a : Nat) (v : Word) :
    Memory.wf (Memory.writeWord m a v) = true :=
  Memory.writeByte_wf (Memory.writeByte_wf h a _) (a + 1) _

/-- A word write inside a memory of `n` bytes lists no byte outside it. -/
theorem Memory.writeWord_within {m : Memory} {n a : Nat} (h : Memory.within n m = true) (ha : a + 1 < n)
    (v : Word) : Memory.within n (Memory.writeWord m a v) = true :=
  Memory.writeByte_within (Memory.writeByte_within h (by omega) _) ha _

end Sys2Proof.Machine
end

