-- ==== Sys2Proof/Laws/State.lean ====
section
/-! SUPPORT. One lemma per field per update of the state, and the register file's read-after-write laws. -/

namespace Sys2Proof.Machine

/-! ### `advance` -/

section
variable (s : State)

@[simp] theorem State.advance_regs : (s.advance).regs = s.regs := rfl
@[simp] theorem State.advance_sp : (s.advance).sp = s.sp := rfl
@[simp] theorem State.advance_pc : (s.advance).pc = s.pc + 1 := rfl
@[simp] theorem State.advance_run : (s.advance).run = s.run := rfl
@[simp] theorem State.advance_cause : (s.advance).cause = s.cause := rfl
@[simp] theorem State.advance_mem : (s.advance).mem = s.mem := rfl
@[simp] theorem State.advance_out : (s.advance).out = s.out := rfl
@[simp] theorem State.advance_prog : (s.advance).prog = s.prog := rfl
@[simp] theorem State.advance_cfg : (s.advance).cfg = s.cfg := rfl
@[simp] theorem State.advance_reg (x : Reg) : (s.advance).reg x = s.reg x := rfl

end

/-! ### `skip` -/

section
variable (s : State)

@[simp] theorem State.skip_regs : (s.skip).regs = s.regs := rfl
@[simp] theorem State.skip_sp : (s.skip).sp = s.sp := rfl
@[simp] theorem State.skip_pc : (s.skip).pc = s.pc + 2 := rfl
@[simp] theorem State.skip_run : (s.skip).run = s.run := rfl
@[simp] theorem State.skip_cause : (s.skip).cause = s.cause := rfl
@[simp] theorem State.skip_mem : (s.skip).mem = s.mem := rfl
@[simp] theorem State.skip_out : (s.skip).out = s.out := rfl
@[simp] theorem State.skip_prog : (s.skip).prog = s.prog := rfl
@[simp] theorem State.skip_cfg : (s.skip).cfg = s.cfg := rfl
@[simp] theorem State.skip_reg (x : Reg) : (s.skip).reg x = s.reg x := rfl

end

/-! ### `setSp` -/

section
variable (s : State)

@[simp] theorem State.setSp_regs (v : Nat) : (s.setSp v).regs = s.regs := rfl
@[simp] theorem State.setSp_sp (v : Nat) : (s.setSp v).sp = v := rfl
@[simp] theorem State.setSp_pc (v : Nat) : (s.setSp v).pc = s.pc := rfl
@[simp] theorem State.setSp_run (v : Nat) : (s.setSp v).run = s.run := rfl
@[simp] theorem State.setSp_cause (v : Nat) : (s.setSp v).cause = s.cause := rfl
@[simp] theorem State.setSp_mem (v : Nat) : (s.setSp v).mem = s.mem := rfl
@[simp] theorem State.setSp_out (v : Nat) : (s.setSp v).out = s.out := rfl
@[simp] theorem State.setSp_prog (v : Nat) : (s.setSp v).prog = s.prog := rfl
@[simp] theorem State.setSp_cfg (v : Nat) : (s.setSp v).cfg = s.cfg := rfl
@[simp] theorem State.setSp_reg (v : Nat) (x : Reg) : (s.setSp v).reg x = s.reg x := rfl

end

/-! ### `storeWord` -/

section
variable (s : State)

@[simp] theorem State.storeWord_regs (a : Nat) (v : Word) : (s.storeWord a v).regs = s.regs := rfl
@[simp] theorem State.storeWord_sp (a : Nat) (v : Word) : (s.storeWord a v).sp = s.sp := rfl
@[simp] theorem State.storeWord_pc (a : Nat) (v : Word) : (s.storeWord a v).pc = s.pc := rfl
@[simp] theorem State.storeWord_run (a : Nat) (v : Word) : (s.storeWord a v).run = s.run := rfl
@[simp] theorem State.storeWord_cause (a : Nat) (v : Word) : (s.storeWord a v).cause = s.cause := rfl
@[simp] theorem State.storeWord_mem (a : Nat) (v : Word) : (s.storeWord a v).mem = Memory.writeWord s.mem a v := rfl
@[simp] theorem State.storeWord_out (a : Nat) (v : Word) : (s.storeWord a v).out = s.out := rfl
@[simp] theorem State.storeWord_prog (a : Nat) (v : Word) : (s.storeWord a v).prog = s.prog := rfl
@[simp] theorem State.storeWord_cfg (a : Nat) (v : Word) : (s.storeWord a v).cfg = s.cfg := rfl
@[simp] theorem State.storeWord_reg (a : Nat) (v : Word) (x : Reg) : (s.storeWord a v).reg x = s.reg x := rfl

end

/-! ### `emit` -/

section
variable (s : State)

@[simp] theorem State.emit_regs (v : Word) : (s.emit v).regs = s.regs := rfl
@[simp] theorem State.emit_sp (v : Word) : (s.emit v).sp = s.sp := rfl
@[simp] theorem State.emit_pc (v : Word) : (s.emit v).pc = s.pc := rfl
@[simp] theorem State.emit_run (v : Word) : (s.emit v).run = s.run := rfl
@[simp] theorem State.emit_cause (v : Word) : (s.emit v).cause = s.cause := rfl
@[simp] theorem State.emit_mem (v : Word) : (s.emit v).mem = s.mem := rfl
@[simp] theorem State.emit_out (v : Word) : (s.emit v).out = s.out ++ [v] := rfl
@[simp] theorem State.emit_prog (v : Word) : (s.emit v).prog = s.prog := rfl
@[simp] theorem State.emit_cfg (v : Word) : (s.emit v).cfg = s.cfg := rfl
@[simp] theorem State.emit_reg (v : Word) (x : Reg) : (s.emit v).reg x = s.reg x := rfl

end

/-! ### `haltOk` -/

section
variable (s : State)

@[simp] theorem State.haltOk_regs : (s.haltOk).regs = s.regs := rfl
@[simp] theorem State.haltOk_sp : (s.haltOk).sp = s.sp := rfl
@[simp] theorem State.haltOk_pc : (s.haltOk).pc = s.pc := rfl
@[simp] theorem State.haltOk_run : (s.haltOk).run = .haltedOk := rfl
@[simp] theorem State.haltOk_cause : (s.haltOk).cause = s.cause := rfl
@[simp] theorem State.haltOk_mem : (s.haltOk).mem = s.mem := rfl
@[simp] theorem State.haltOk_out : (s.haltOk).out = s.out := rfl
@[simp] theorem State.haltOk_prog : (s.haltOk).prog = s.prog := rfl
@[simp] theorem State.haltOk_cfg : (s.haltOk).cfg = s.cfg := rfl
@[simp] theorem State.haltOk_reg (x : Reg) : (s.haltOk).reg x = s.reg x := rfl

end

/-! ### `faulted` -/

section
variable (s : State)

@[simp] theorem State.faulted_regs (c : Cause) : (s.faulted c).regs = s.regs := rfl
@[simp] theorem State.faulted_sp (c : Cause) : (s.faulted c).sp = s.sp := rfl
@[simp] theorem State.faulted_pc (c : Cause) : (s.faulted c).pc = s.pc := rfl
@[simp] theorem State.faulted_run (c : Cause) : (s.faulted c).run = .haltedFault := rfl
@[simp] theorem State.faulted_cause (c : Cause) : (s.faulted c).cause = c := rfl
@[simp] theorem State.faulted_mem (c : Cause) : (s.faulted c).mem = s.mem := rfl
@[simp] theorem State.faulted_out (c : Cause) : (s.faulted c).out = s.out := rfl
@[simp] theorem State.faulted_prog (c : Cause) : (s.faulted c).prog = s.prog := rfl
@[simp] theorem State.faulted_cfg (c : Cause) : (s.faulted c).cfg = s.cfg := rfl
@[simp] theorem State.faulted_reg (c : Cause) (x : Reg) : (s.faulted c).reg x = s.reg x := rfl

end

/-! ### `setReg` -/

section
variable (s : State)

@[simp] theorem State.setReg_regs (r : Reg) (v : Word) : (s.setReg r v).regs = s.regs.write r v := by
  cases r <;> rfl
@[simp] theorem State.setReg_sp (r : Reg) (v : Word) : (s.setReg r v).sp = s.sp := rfl
@[simp] theorem State.setReg_pc (r : Reg) (v : Word) : (s.setReg r v).pc = s.pc := rfl
@[simp] theorem State.setReg_run (r : Reg) (v : Word) : (s.setReg r v).run = s.run := rfl
@[simp] theorem State.setReg_cause (r : Reg) (v : Word) : (s.setReg r v).cause = s.cause := rfl
@[simp] theorem State.setReg_mem (r : Reg) (v : Word) : (s.setReg r v).mem = s.mem := rfl
@[simp] theorem State.setReg_out (r : Reg) (v : Word) : (s.setReg r v).out = s.out := rfl
@[simp] theorem State.setReg_prog (r : Reg) (v : Word) : (s.setReg r v).prog = s.prog := rfl
@[simp] theorem State.setReg_cfg (r : Reg) (v : Word) : (s.setReg r v).cfg = s.cfg := rfl

end

/-! ### `withFetchWord` -/

section
variable (s : State)

@[simp] theorem State.withFetchWord_regs (n w : Nat) : (s.withFetchWord n w).regs = s.regs := rfl
@[simp] theorem State.withFetchWord_sp (n w : Nat) : (s.withFetchWord n w).sp = s.sp := rfl
@[simp] theorem State.withFetchWord_pc (n w : Nat) : (s.withFetchWord n w).pc = s.pc := rfl
@[simp] theorem State.withFetchWord_run (n w : Nat) : (s.withFetchWord n w).run = s.run := rfl
@[simp] theorem State.withFetchWord_cause (n w : Nat) : (s.withFetchWord n w).cause = s.cause := rfl
@[simp] theorem State.withFetchWord_mem (n w : Nat) : (s.withFetchWord n w).mem = s.mem := rfl
@[simp] theorem State.withFetchWord_out (n w : Nat) : (s.withFetchWord n w).out = s.out := rfl
@[simp] theorem State.withFetchWord_prog (n w : Nat) : (s.withFetchWord n w).prog = placeLine s.prog s.pc ((lineOfTableWord n w).getD unfetchableLine) := rfl
@[simp] theorem State.withFetchWord_cfg (n w : Nat) : (s.withFetchWord n w).cfg = s.cfg := rfl
@[simp] theorem State.withFetchWord_reg (n w : Nat) (x : Reg) : (s.withFetchWord n w).reg x = s.reg x := rfl

end

/-! ### The register file -/

@[simp] theorem RegFile.read_write_same (f : RegFile) (r : Reg) (v : Word) : (f.write r v).read r = v := by
  cases r <;> rfl

@[simp] theorem RegFile.read_write_other (f : RegFile) (r x : Reg) (v : Word) (h : x ≠ r) :
    (f.write r v).read x = f.read x := by
  cases r <;> cases x <;> first | rfl | exact absurd rfl h

@[simp] theorem Reg.ofIndex_index (r : Reg) : Reg.ofIndex r.index = r := by cases r <;> rfl

theorem State.reg_eq_read (s : State) (r : Reg) : s.reg r = s.regs.read r := by
  rw [State.reg, RegFile.readPort, Reg.ofIndex_index]

@[simp] theorem State.setReg_reg_same (s : State) (r : Reg) (v : Word) : (s.setReg r v).reg r = v := by
  rw [State.reg_eq_read, State.setReg_regs, RegFile.read_write_same]

@[simp] theorem State.setReg_reg_other (s : State) (r x : Reg) (v : Word) (h : x ≠ r) :
    (s.setReg r v).reg x = s.reg x := by
  rw [State.reg_eq_read, State.reg_eq_read, State.setReg_regs, RegFile.read_write_other _ _ _ _ h]

/-- A register that a write changed is the register written. -/
theorem State.eq_of_setReg_reg_ne {s : State} {r x : Reg} {v : Word} (h : (s.setReg r v).reg x ≠ s.reg x) :
    x = r := by
  by_contra hx
  exact h (s.setReg_reg_other r x v hx)

/-- Two register files that read alike are equal. -/
theorem RegFile.ext_read {f g : RegFile} (h : ∀ r, f.read r = g.read r) : f = g := by
  cases f; cases g
  have ha := h .a; have hb := h .b; have hc := h .c; have hd := h .d
  simp only [RegFile.read] at ha hb hc hd
  simp [ha, hb, hc, hd]

end Sys2Proof.Machine
end

