-- ==== Sys2Proof/Laws/Machine.lean ====
section
/-! SUPPORT. What each shared operation, each instruction and a step can do, said once: the validator's answers, the
equations of the memory instructions, and the inversions of `exec` and `step`. -/

namespace Sys2Proof.Machine

/-! ### The validator -/

theorem validate_push_of_room {s : State} (h : s.sp + 2 ≤ s.cfg.stackSize) : validate .push 0 s = .ok s.sp := by
  simp only [validate, pushAddress]
  rw [if_neg (by omega)]

theorem validate_push_of_full {s : State} (h : s.cfg.stackSize < s.sp + 2) :
    validate .push 0 s = .error .stackOverflow := by
  simp only [validate]
  rw [if_pos h]

theorem validate_pop_of_nonempty {s : State} (h : 2 ≤ s.sp) : validate .pop 0 s = .ok (s.sp - 2) := by
  simp only [validate, popAddress]
  rw [if_neg (by omega)]

theorem validate_pop_of_empty {s : State} (h : s.sp < 2) : validate .pop 0 s = .error .stackUnderflow := by
  simp only [validate]
  rw [if_pos h]

theorem validateHeap_of_heap {c : Config} {addr : Word} (v : Cause) (h0 : c.stackSize ≤ addr.toNat)
    (h1 : addr.toNat + 2 ≤ c.memSize) : validateHeap c v addr = .ok addr.toNat := by
  have e : heapAddress addr = addr.toNat := rfl
  rw [validateHeap, if_neg (by omega), if_neg (by omega), e]

theorem validateHeap_of_stack {c : Config} {addr : Word} (v : Cause) (h : addr.toNat < c.stackSize) :
    validateHeap c v addr = .error v := by
  rw [validateHeap, if_pos (show heapAddress addr < c.stackSize from h)]

theorem validateHeap_of_past_end {c : Config} {addr : Word} (v : Cause) (h0 : c.stackSize ≤ addr.toNat)
    (h1 : c.memSize < addr.toNat + 2) : validateHeap c v addr = .error .heapAddressOutOfRange := by
  have e : heapAddress addr = addr.toNat := rfl
  rw [validateHeap, if_neg (by omega), if_pos (by omega)]

/-! ### The memory instructions -/

theorem execPush_of_room {s : State} (rs : Reg) (h : s.sp + 2 ≤ s.cfg.stackSize) :
    execPush rs s = .next ((s.storeWord s.sp (s.reg rs)).setSp (s.sp + 2)).advance := by
  rw [execPush, validate_push_of_room h]

theorem execPush_of_full {s : State} (rs : Reg) (h : s.cfg.stackSize < s.sp + 2) :
    execPush rs s = .next (s.faulted .stackOverflow) := by
  rw [execPush, validate_push_of_full h]
  rfl

theorem execPop_of_nonempty {s : State} (rd : Reg) (h : 2 ≤ s.sp) :
    execPop rd s = .next ((s.setReg rd (Memory.readWord s.mem (s.sp - 2))).setSp (s.sp - 2)).advance := by
  rw [execPop, validate_pop_of_nonempty h]

theorem execPop_of_empty {s : State} (rd : Reg) (h : s.sp < 2) :
    execPop rd s = .next (s.faulted .stackUnderflow) := by
  rw [execPop, validate_pop_of_empty h]
  rfl

theorem execLoad_of_heap {s : State} {addr : Word} (rd : Reg) (h0 : s.cfg.stackSize ≤ addr.toNat)
    (h1 : addr.toNat + 2 ≤ s.cfg.memSize) :
    execLoad addr rd s = .next (s.setReg rd (Memory.readWord s.mem addr.toNat)).advance := by
  rw [execLoad, validate, validateHeap_of_heap _ h0 h1]

theorem execLoad_of_stack {s : State} {addr : Word} (rd : Reg) (h : addr.toNat < s.cfg.stackSize) :
    execLoad addr rd s = .next (s.faulted .stackRegionViolationRead) := by
  rw [execLoad, validate, validateHeap_of_stack _ h]
  rfl

theorem execLoad_of_past_end {s : State} {addr : Word} (rd : Reg) (h0 : s.cfg.stackSize ≤ addr.toNat)
    (h1 : s.cfg.memSize < addr.toNat + 2) :
    execLoad addr rd s = .next (s.faulted .heapAddressOutOfRange) := by
  rw [execLoad, validate, validateHeap_of_past_end _ h0 h1]
  rfl

theorem execStore_of_heap {s : State} {addr : Word} (rs : Reg) (h0 : s.cfg.stackSize ≤ addr.toNat)
    (h1 : addr.toNat + 2 ≤ s.cfg.memSize) :
    execStore addr rs s = .next (s.storeWord addr.toNat (s.reg rs)).advance := by
  rw [execStore, validate, validateHeap_of_heap _ h0 h1]

theorem execStore_of_stack {s : State} {addr : Word} (rs : Reg) (h : addr.toNat < s.cfg.stackSize) :
    execStore addr rs s = .next (s.faulted .stackRegionViolationWrite) := by
  rw [execStore, validate, validateHeap_of_stack _ h]
  rfl

theorem execStore_of_past_end {s : State} {addr : Word} (rs : Reg) (h0 : s.cfg.stackSize ≤ addr.toNat)
    (h1 : s.cfg.memSize < addr.toNat + 2) :
    execStore addr rs s = .next (s.faulted .heapAddressOutOfRange) := by
  rw [execStore, validate, validateHeap_of_past_end _ h0 h1]
  rfl

/-- A heap address is below the stack region's end, a word inside the heap, or past its last word. -/
theorem heap_address_cases (c : Config) (addr : Word) :
    addr.toNat < c.stackSize ∨ (c.stackSize ≤ addr.toNat ∧ addr.toNat + 2 ≤ c.memSize) ∨
      (c.stackSize ≤ addr.toNat ∧ c.memSize < addr.toNat + 2) := by
  omega

/-! ### Every instruction -/

/-- What an instruction can do: fault with one of its causes, skip, advance, emit, write its destination, push, pop
or store. -/
theorem exec_cases {i : Instr} {s t : State} (h : exec i s = .next t) :
    (∃ c ∈ raisable i, t = s.faulted c) ∨
    (∃ rs, i = .ifnz rs ∧ s.reg rs = 0 ∧ s.prog[s.pc + 1]? ≠ some [] ∧ t = s.skip) ∨
    (∃ rs, i = .ifnz rs ∧ s.reg rs ≠ 0 ∧ t = s.advance) ∨
    (∃ rs, i = .print rs ∧ t = (s.emit (s.reg rs)).advance) ∨
    (∃ rd v, dest i = some rd ∧ isStackInstr i = false ∧ t = (s.setReg rd v).advance) ∨
    (∃ rs, i = .push rs ∧ s.sp + 2 ≤ s.cfg.stackSize ∧
      t = ((s.storeWord s.sp (s.reg rs)).setSp (s.sp + 2)).advance) ∨
    (∃ rd, i = .pop rd ∧ 2 ≤ s.sp ∧
      t = ((s.setReg rd (Memory.readWord s.mem (s.sp - 2))).setSp (s.sp - 2)).advance) ∨
    (∃ addr rs, i = .store addr rs ∧ s.cfg.stackSize ≤ addr.toNat ∧ addr.toNat + 2 ≤ s.cfg.memSize ∧
      t = (s.storeWord addr.toNat (s.reg rs)).advance) := by
  cases i with
  | setV rd v | setR rd v | addV rd v | addR rd v | subV rd v | subR rd v =>
    injection h with h
    exact .inr (.inr (.inr (.inr (.inl ⟨rd, _, rfl, rfl, h.symm⟩))))
  | ifnz rs =>
    simp only [exec, execIfnz, raiseFault] at h
    split at h
    · rename_i hz
      split at h
      · injection h with h
        exact .inl ⟨_, List.mem_singleton.2 rfl, h.symm⟩
      · rename_i hne
        injection h with h
        exact .inr (.inl ⟨rs, rfl, hz, fun e => hne (decide_eq_true e), h.symm⟩)
    · rename_i hz
      injection h with h
      exact .inr (.inr (.inl ⟨rs, rfl, hz, h.symm⟩))
  | print rs =>
    injection h with h
    exact .inr (.inr (.inr (.inl ⟨rs, rfl, h.symm⟩)))
  | push rs =>
    rcases Nat.lt_or_ge s.cfg.stackSize (s.sp + 2) with hf | hr
    · rw [exec, execPush_of_full rs hf] at h
      injection h with h
      exact .inl ⟨_, List.mem_singleton.2 rfl, h.symm⟩
    · rw [exec, execPush_of_room rs hr] at h
      injection h with h
      exact .inr (.inr (.inr (.inr (.inr (.inl ⟨rs, rfl, hr, h.symm⟩)))))
  | pop rd =>
    rcases Nat.lt_or_ge s.sp 2 with he | hn
    · rw [exec, execPop_of_empty rd he] at h
      injection h with h
      exact .inl ⟨_, List.mem_singleton.2 rfl, h.symm⟩
    · rw [exec, execPop_of_nonempty rd hn] at h
      injection h with h
      exact .inr (.inr (.inr (.inr (.inr (.inr (.inl ⟨rd, rfl, hn, h.symm⟩))))))
  | load addr rd =>
    rcases heap_address_cases s.cfg addr with hs | ⟨h0, h1⟩ | ⟨h0, h1⟩
    · rw [exec, execLoad_of_stack rd hs] at h
      injection h with h
      exact .inl ⟨_, List.mem_cons_self .., h.symm⟩
    · rw [exec, execLoad_of_heap rd h0 h1] at h
      injection h with h
      exact .inr (.inr (.inr (.inr (.inl ⟨rd, _, rfl, rfl, h.symm⟩))))
    · rw [exec, execLoad_of_past_end rd h0 h1] at h
      injection h with h
      exact .inl ⟨_, List.mem_cons_of_mem _ (List.mem_singleton.2 rfl), h.symm⟩
  | store addr rs =>
    rcases heap_address_cases s.cfg addr with hs | ⟨h0, h1⟩ | ⟨h0, h1⟩
    · rw [exec, execStore_of_stack rs hs] at h
      injection h with h
      exact .inl ⟨_, List.mem_cons_self .., h.symm⟩
    · rw [exec, execStore_of_heap rs h0 h1] at h
      injection h with h
      exact .inr (.inr (.inr (.inr (.inr (.inr (.inr ⟨addr, rs, rfl, h0, h1, h.symm⟩))))))
    · rw [exec, execStore_of_past_end rs h0 h1] at h
      injection h with h
      exact .inl ⟨_, List.mem_cons_of_mem _ (List.mem_singleton.2 rfl), h.symm⟩

/-- No instruction stops: every meaning answers a next state. -/
theorem exec_answers (i : Instr) (s : State) : ∃ t, exec i s = .next t := by
  cases i with
  | setV rd v | setR rd v | addV rd v | addR rd v | subV rd v | subR rd v | print rd => exact ⟨_, rfl⟩
  | ifnz rs =>
    simp only [exec, execIfnz, raiseFault]
    split
    · split <;> exact ⟨_, rfl⟩
    · exact ⟨_, rfl⟩
  | push rs => simp only [exec, execPush, raiseFault]; split <;> exact ⟨_, rfl⟩
  | pop rd => simp only [exec, execPop, raiseFault]; split <;> exact ⟨_, rfl⟩
  | load addr rd => simp only [exec, execLoad, raiseFault]; split <;> exact ⟨_, rfl⟩
  | store addr rs => simp only [exec, execStore, raiseFault]; split <;> exact ⟨_, rfl⟩

/-! ### The step -/

theorem step_of_ready {s : State} (h : Ready s) : step s = runningStep s := by
  rw [step, if_pos h.1, h.2]

theorem ready_of_step {s t : State} (h : step s = .next t) : Ready s := by
  unfold step at h
  split at h
  · rename_i hc
    refine ⟨hc, ?_⟩
    cases hr : s.run with
    | running => rfl
    | haltedOk => rw [hr] at h; simp at h
    | haltedFault => rw [hr] at h; simp at h
  · simp at h

/-- Decoding, the shape check and the dispatch of a line, in one equation. -/
theorem runLine_eq (line : Line) (s : State) :
    runLine line s =
      match decode s.cfg line with
      | .error c => raiseFault c s
      | .ok i => exec i s := by
  unfold runLine decode
  cases decodeLine s.cfg line with
  | error c => rfl
  | ok w => rfl

/-- The step of a running block whose line at PC decodes to `i` is `exec i`. -/
theorem step_of_fetches {s : State} {i : Instr} (hs : Ready s) (hf : Fetches s i) : step s = exec i s := by
  obtain ⟨line, hl, hne, hd⟩ := hf
  rw [step_of_ready hs, runningStep, fetchLine, hl]
  simp only [hne, if_false]
  rw [runLine_eq, hd]

/-- The step of a running block whose line at PC does not decode takes the decoder's fault. -/
theorem step_of_decode_error {s : State} {line : Line} {c : Cause} (hs : Ready s) (hl : s.prog[s.pc]? = some line)
    (hne : line ≠ []) (hd : decode s.cfg line = .error c) : step s = .next (s.faulted c) := by
  rw [step_of_ready hs, runningStep, fetchLine, hl]
  simp only [hne, if_false]
  rw [runLine_eq, hd]
  rfl

/-- What a step can do: halt at end of input, pass an empty line, take a decode fault, or run the instruction at
PC. -/
theorem step_cases {s t : State} (h : step s = .next t) :
    (s.prog.length ≤ s.pc ∧ t = s.haltOk) ∨
    (s.prog[s.pc]? = some [] ∧ t = s.advance) ∨
    (∃ line c, s.prog[s.pc]? = some line ∧ line ≠ [] ∧ decode s.cfg line = .error c ∧ t = s.faulted c) ∨
    (∃ i, Fetches s i ∧ exec i s = .next t) := by
  rw [step_of_ready (ready_of_step h), runningStep, fetchLine] at h
  cases hl : s.prog[s.pc]? with
  | none =>
    rw [hl] at h
    injection h with h
    exact .inl ⟨List.getElem?_eq_none_iff.1 hl, h.symm⟩
  | some line =>
    rw [hl] at h
    simp only at h
    split at h
    · rename_i he
      injection h with h
      exact .inr (.inl ⟨by rw [he], h.symm⟩)
    · rename_i hne
      rw [runLine_eq] at h
      cases hd : decode s.cfg line with
      | error c =>
        rw [hd] at h
        injection h with h
        exact .inr (.inr (.inl ⟨line, c, rfl, hne, hd, h.symm⟩))
      | ok i =>
        rw [hd] at h
        exact .inr (.inr (.inr ⟨i, ⟨line, hl, hne, hd⟩, h⟩))

end Sys2Proof.Machine
end

