-- ==== Sys2Proof/Laws/PerInstr.lean ====
section
/-! SUPPORT. Facts about every instruction as syntax, one lemma per constructor. -/

namespace Sys2Proof

theorem length_digits (fuel n : Nat) (h : n ≤ fuel) : (digits fuel n).length = Nat.log 10 n + 1 := by
  induction fuel generalizing n with
  | zero =>
    have : n = 0 := by omega
    subst this
    rfl
  | succ k ih =>
    rw [digits]
    split
    · rename_i hn
      rw [Nat.log_of_lt hn]
      rfl
    · rename_i hn
      rw [List.length_append, ih _ (by omega), Nat.log_of_one_lt_of_le (by omega) (by omega : 10 ≤ n)]
      rfl

/-- The decimal text of a 16-bit value is as long as `decimalWidth` says. -/
theorem length_decimal (v : Word) : (decimal v.toNat).length = decimalWidth v := by
  rw [decimal, length_digits _ _ (Nat.le_refl _)]
  have hv := v.isLt
  unfold decimalWidth
  have log_eq {k n : Nat} (h0 : 10 ^ k ≤ n) (h1 : n < 10 ^ (k + 1)) : Nat.log 10 n = k :=
    (Nat.log_eq_iff (.inr ⟨by omega, by have := Nat.pow_pos (n := k) (show 0 < 10 by omega); omega⟩)).2 ⟨h0, h1⟩
  split
  · rw [Nat.log_of_lt ‹_›]
  · split
    · rw [log_eq (k := 1) (by omega) (by omega)]
    · split
      · rw [log_eq (k := 2) (by omega) (by omega)]
      · split
        · rw [log_eq (k := 3) (by omega) (by omega)]
        · rw [log_eq (k := 4) (by omega) (by omega)]

@[simp] theorem Reg.length_name (r : Reg) : r.name.length = 1 := by cases r <;> rfl

theorem length_joinTokens_two (m x : Token) : (joinTokens [m, x]).length = m.length + (1 + x.length) := by
  simp [joinTokens, Nat.add_comm]

theorem length_joinTokens_three (m x y : Token) :
    (joinTokens [m, x, y]).length = m.length + (1 + x.length) + (1 + y.length) := by
  simp only [joinTokens, List.length_append, List.length_cons]
  omega

namespace Laws.LineLength

/-- An instruction's canonical line has the length its well-formedness counts (R120, R124). -/
def Statement (i : Instr) : Prop := (encodeLine i).length = i.lineLength

theorem setV (rd : Reg) (imm : Word) : Statement (.setV rd imm) := by
  rw [Statement, encodeLine, length_joinTokens_three, Reg.length_name, length_decimal]
  rfl

theorem setR (rd rs : Reg) : Statement (.setR rd rs) := by
  rw [Statement, encodeLine, length_joinTokens_three, Reg.length_name, Reg.length_name]
  rfl

theorem addV (rd : Reg) (imm : Word) : Statement (.addV rd imm) := by
  rw [Statement, encodeLine, length_joinTokens_three, Reg.length_name, length_decimal]
  rfl

theorem addR (rd rs : Reg) : Statement (.addR rd rs) := by
  rw [Statement, encodeLine, length_joinTokens_three, Reg.length_name, Reg.length_name]
  rfl

theorem subV (rd : Reg) (imm : Word) : Statement (.subV rd imm) := by
  rw [Statement, encodeLine, length_joinTokens_three, Reg.length_name, length_decimal]
  rfl

theorem subR (rd rs : Reg) : Statement (.subR rd rs) := by
  rw [Statement, encodeLine, length_joinTokens_three, Reg.length_name, Reg.length_name]
  rfl

theorem ifnz (rs : Reg) : Statement (.ifnz rs) := by
  rw [Statement, encodeLine, length_joinTokens_two, Reg.length_name]
  rfl

theorem print (rs : Reg) : Statement (.print rs) := by
  rw [Statement, encodeLine, length_joinTokens_two, Reg.length_name]
  rfl

theorem push (rs : Reg) : Statement (.push rs) := by
  rw [Statement, encodeLine, length_joinTokens_two, Reg.length_name]
  rfl

theorem pop (rd : Reg) : Statement (.pop rd) := by
  rw [Statement, encodeLine, length_joinTokens_two, Reg.length_name]
  rfl

theorem load (addr : Word) (rd : Reg) : Statement (.load addr rd) := by
  rw [Statement, encodeLine, length_joinTokens_three, Reg.length_name, length_decimal]
  rfl

theorem store (addr : Word) (rs : Reg) : Statement (.store addr rs) := by
  rw [Statement, encodeLine, length_joinTokens_three, Reg.length_name, length_decimal]
  rfl

end Laws.LineLength

/-- The canonical line of every instruction has the length `Instr.lineLength` says. -/
theorem length_encodeLine (i : Instr) : (encodeLine i).length = i.lineLength := by
  cases i with
  | setV rd v => exact Laws.LineLength.setV rd v
  | setR rd rs => exact Laws.LineLength.setR rd rs
  | addV rd v => exact Laws.LineLength.addV rd v
  | addR rd rs => exact Laws.LineLength.addR rd rs
  | subV rd v => exact Laws.LineLength.subV rd v
  | subR rd rs => exact Laws.LineLength.subR rd rs
  | ifnz rs => exact Laws.LineLength.ifnz rs
  | print rs => exact Laws.LineLength.print rs
  | push rs => exact Laws.LineLength.push rs
  | pop rd => exact Laws.LineLength.pop rd
  | load v rd => exact Laws.LineLength.load v rd
  | store v rs => exact Laws.LineLength.store v rs

/-- MAX_LINE_LEN shuts out exactly the canonical lines of the instructions that are not well-formed under it (R124). -/
theorem lineTooLong_encodeLine (c : Config) (i : Instr) : lineTooLong c (encodeLine i) = !i.wf c := by
  unfold lineTooLong Instr.wf
  rw [length_encodeLine]
  cases c.maxLineLen with
  | none => rfl
  | some m => simp [← decide_not]

end Sys2Proof
end

