-- ==== Sys2Proof/Tests/Slice0.lean ====
section
/-! SUPPORT. The model's own tests: ill-formed terms, words and lines written out from the spec, one step of each
instruction, and a witness for the hypotheses of every statement. Expected values are those of
spec/95_test_vectors.md (the vector is named) or worked by hand from the rule named. -/

namespace Sys2Proof.Tests

open Sys2Proof.Machine

/-- A reset machine with a program of one or more lines. -/
def withProgram (lines : List (List Char)) : State := { State.reset with prog := lines.map ascii }

/-- What `f` sees of the next state of an outcome. -/
def after {α : Type} (o : Host.Outcome State Fault Refusal) (f : State → α) : Option α :=
  match o with
  | .next t => some (f t)
  | .fault _ => none
  | .refused _ => none

/-! ### Well-formedness refuses ill-formed terms -/

theorem test_config_default_wf : Config.default.wf = true := by decide

theorem test_config_memSize_not_power_of_two : Config.wf { Config.default with memSize := 200 } = false := by decide

theorem test_config_memSize_one : Config.wf { Config.default with memSize := 1, stackSize := 0 } = false := by decide

theorem test_config_no_heap_word : Config.wf { Config.default with stackSize := 255 } = false := by decide

theorem test_config_literal_limit : Config.wf { Config.default with immLiteralLimit := 65535 } = false := by decide

theorem test_config_one_heap_word : Config.wf { Config.default with stackSize := 254 } = true := by decide

theorem test_word_reserved_opcode : DiwFields.wf ⟨12, 2, 0, 0, 1, 0⟩ = false := by decide

theorem test_word_wrong_count : DiwFields.wf ⟨7, 2, 0, 0, 0, 1⟩ = false := by decide

theorem test_word_wrong_kind : DiwFields.wf ⟨7, 1, 1, 5, 0, 0⟩ = false := by decide

theorem test_word_no_such_register : DiwFields.wf ⟨0, 2, 0, 4, 1, 0⟩ = false := by decide

theorem test_word_absent_operand_nonzero : DiwFields.wf ⟨9, 1, 0, 0, 0, 1⟩ = false := by decide

theorem test_instr_line_too_long :
    Instr.wf { Config.default with maxLineLen := some 8 } (.setV .a 10) = false := by decide

/-! ### Decoding: words and lines written out from spec/30_encoding.md R123 -/

/-- `{OPC, NOPS, T1, V1, T2, V2}` = 0000 10 0 00..01 1 000A. -/
theorem test_decode_setV : checkShape 0b0000100000000000000000110000000000001010 = .ok (.setV .b 10) := by decide

theorem test_decode_setR : checkShape 0b0001100000000000000000100000000000000011 = .ok (.setR .b .d) := by decide

theorem test_decode_addV : checkShape 0b0010100000000000000001010000001111101000 = .ok (.addV .c 1000) := by decide

theorem test_decode_addR : checkShape 0b0011100000000000000000100000000000000000 = .ok (.addR .b .a) := by decide

theorem test_decode_subV : checkShape 0b0100100000000000000000110000000000000101 = .ok (.subV .b 5) := by decide

theorem test_decode_subR : checkShape 0b0101100000000000000001100000000000000001 = .ok (.subR .d .b) := by decide

theorem test_decode_ifnz : checkShape 0b0110010000000000000000100000000000000000 = .ok (.ifnz .b) := by decide

theorem test_decode_print : checkShape 0b0111010000000000000001000000000000000000 = .ok (.print .c) := by decide

theorem test_decode_push : checkShape 0b1000010000000000000000100000000000000000 = .ok (.push .b) := by decide

theorem test_decode_pop : checkShape 0b1001010000000000000001100000000000000000 = .ok (.pop .d) := by decide

theorem test_decode_load : checkShape 0b1010101000000000110010000000000000000011 = .ok (.load 100 .d) := by decide

theorem test_decode_store : checkShape 0b1011101000000000111111100000000000000010 = .ok (.store 127 .c) := by decide

/-- E6: leading zeros are allowed. -/
theorem test_line_leading_zeros :
    decode .default (ascii ['S', 'E', 'T', 'v', ' ', 'a', ' ', '0', '0', '7']) = .ok (.setV .a 7) := by decide

/-- E3: 65536 is 0. -/
theorem test_line_truncated :
    decodeLine .default (ascii ['S', 'E', 'T', 'v', ' ', 'a', ' ', '6', '5', '5', '3', '6']) = .ok 0x0800010000 := by
  decide

/-- E8: 2147483648 is at the literal limit. -/
theorem test_line_literal_limit :
    decode .default (ascii ['S', 'E', 'T', 'v', ' ', 'a', ' ', '2', '1', '4', '7', '4', '8', '3', '6', '4', '8']) =
      .error .malformedImmediate := by decide

/-- E10: no signs. -/
theorem test_line_sign :
    decode .default (ascii ['S', 'E', 'T', 'v', ' ', 'a', ' ', '-', '1']) = .error .malformedImmediate := by decide

/-- E16: two spaces give an empty token. -/
theorem test_line_two_spaces :
    decode .default (ascii ['S', 'E', 'T', 'v', ' ', ' ', 'a', ' ', '1']) = .error .malformedImmediate := by decide

/-- E19: mnemonics are case-sensitive. -/
theorem test_line_case :
    decode .default (ascii ['S', 'E', 'T', 'V', ' ', 'a', ' ', '1']) = .error .unknownOpcode := by decide

/-- E23: three operands are NOPS = 3, and an arity fault. -/
theorem test_line_surplus_operand :
    decodeLine .default (ascii ['S', 'E', 'T', 'v', ' ', 'a', ' ', '1', ' ', '2']) = .ok 0x0C00010001 ∧
    decode .default (ascii ['S', 'E', 'T', 'v', ' ', 'a', ' ', '1', ' ', '2']) = .error .invalidOperandArity := by
  decide

/-- E32: a NUMERIC operand where a REGISTER is required. -/
theorem test_line_wrong_kind :
    decodeLine .default (ascii ['P', 'R', 'I', 'N', 'T', ' ', '5']) = .ok 0x76000A0000 ∧
    decode .default (ascii ['P', 'R', 'I', 'N', 'T', ' ', '5']) = .error .invalidOperandType := by decide

/-- The encoder's words of programs P1 to P3. -/
theorem test_encode_words :
    encode (.setV .a 65000) = 0x080001FDE8 ∧ encode (.subR .a .a) = 0x5800000000 ∧
    encode (.pop .c) = 0x9400040000 ∧ encode (.store 63 .c) = 0xBA007E0002 := by decide

/-- The table's match words with all variable bits 0 decode to their rows' instructions. -/
theorem test_table_words :
    decodeTableWord 40 0x0800010000 = some (.setV .a 0) ∧ decodeTableWord 40 0x7400000000 = some (.print .a) ∧
    decodeTableWord 40 0xBA00000000 = some (.store 0 .a) ∧ decodeTableWord 40 0xC000000000 = none := by decide

/-! ### One step of each instruction -/

theorem test_setV : after (execSetV .d 65535 State.reset) (fun t => (t.regs, t.pc)) = some (⟨0, 0, 0, 65535⟩, 1) := by
  decide

/-- A15. -/
theorem test_setR : after (execSetR .c .b { State.reset with regs := ⟨0, 9, 0, 0⟩ }) (·.regs) = some ⟨0, 9, 9, 0⟩ := by
  decide

/-- A2: 32768 + 32768 saturates. -/
theorem test_addV_saturates :
    after (execAddV .d 32768 { State.reset with regs := ⟨0, 0, 0, 32768⟩ }) (·.regs) = some ⟨0, 0, 0, 65535⟩ := by
  decide

/-- A3: 65534 + 1 is exact. -/
theorem test_addV_exact :
    after (execAddV .a 1 { State.reset with regs := ⟨65534, 0, 0, 0⟩ }) (·.regs) = some ⟨65535, 0, 0, 0⟩ := by decide

/-- A8: both operands read the old value. -/
theorem test_addR_same_register :
    after (execAddR .b .b { State.reset with regs := ⟨0, 300, 0, 0⟩ }) (·.regs) = some ⟨0, 600, 0, 0⟩ := by decide

/-- A9. -/
theorem test_subV_clamps :
    after (execSubV .b 2 { State.reset with regs := ⟨0, 1, 0, 0⟩ }) (·.regs) = some ⟨0, 0, 0, 0⟩ := by decide

/-- A13: operand 1 minus operand 2. -/
theorem test_subR_order :
    after (execSubR .a .b { State.reset with regs := ⟨10, 3, 0, 0⟩ }) (·.regs) = some ⟨7, 3, 0, 0⟩ := by decide

/-- K3: a taken skip on the last line makes PC 2. -/
theorem test_ifnz_taken : after (step (withProgram [['I', 'F', 'N', 'Z', ' ', 'a']])) (·.pc) = some 2 := by decide

/-- K7: a taken skip onto an empty line is refused at PC 0. -/
theorem test_ifnz_empty_line :
    after (step (withProgram [['I', 'F', 'N', 'Z', ' ', 'a'], []])) (fun t => (t.pc, t.run, t.cause.code)) =
      some (0, .haltedFault, 11) := by decide

theorem test_print_appends :
    after (execPrint .b { State.reset with regs := ⟨0, 65535, 0, 0⟩, out := [7] }) (·.out) = some [7, 65535] := by
  decide

/-- M1. -/
theorem test_push :
    after (execPush .a { State.reset with regs := ⟨4660, 0, 0, 0⟩ }) (fun t => (t.mem, t.sp, t.pc)) =
      some ([(0, 0x34), (1, 0x12)], 2, 1) := by decide

/-- M15: the 33rd PUSH overflows. -/
theorem test_push_full :
    after (execPush .a { State.reset with sp := 64 }) (fun t => (t.sp, t.pc, t.run, t.cause.code)) =
      some (64, 0, .haltedFault, 8) := by decide

/-- R261's example; the bytes stay (R77). -/
theorem test_pop :
    after (execPop .b { State.reset with sp := 2, mem := [(0, 0x34), (1, 0x12)] }) (fun t => (t.regs, t.sp, t.mem)) =
      some (⟨0, 4660, 0, 0⟩, 0, [(0, 0x34), (1, 0x12)]) := by decide

/-- M16. -/
theorem test_pop_empty : after (execPop .a State.reset) (·.cause.code) = some 9 := by decide

/-- M12: overlapping words; MEM[100..102] = 02 04 03. -/
theorem test_load_overlap :
    after (execLoad 100 .c { State.reset with mem := [(100, 2), (101, 4), (102, 3)] }) (·.regs) =
      some ⟨0, 0, 1026, 0⟩ := by decide

/-- M9, M7: the last stack byte and the last byte of memory. -/
theorem test_load_bounds :
    after (execLoad 63 .a State.reset) (·.cause.code) = some 6 ∧
    after (execLoad 255 .a State.reset) (·.cause.code) = some 10 := by decide

/-- M5: the last heap word. -/
theorem test_store_last_word :
    after (execStore 254 .a { State.reset with regs := ⟨513, 0, 0, 0⟩ }) (·.mem) = some [(254, 1), (255, 2)] := by
  decide

/-- M3, M6. -/
theorem test_store_bounds :
    after (execStore 63 .a State.reset) (·.cause.code) = some 7 ∧
    after (execStore 255 .a State.reset) (·.cause.code) = some 10 := by decide

/-- Storing a zero byte unlists it. -/
theorem test_store_zero_is_canonical :
    after (execStore 100 .b { State.reset with mem := [(99, 1), (100, 2), (101, 4)] }) (·.mem) = some [(99, 1)] := by
  decide

/-- X1: an empty program halts at its first step. -/
theorem test_end_of_input : after (step State.reset) (fun t => (t.pc, t.run)) = some (0, .haltedOk) := by decide

/-- R9: CR is kept, an empty line is a line, a final run without LF is a line. -/
theorem test_splitLines : splitLines [0x61, 0x0D, 0x0A, 0x0A, 0x62] = [[0x61, 0x0D], [], [0x62]] := by decide

/-- R11. -/
theorem test_render : renderOut { State.reset with out := [0, 65535] } =
    [0x30, 0x0A] ++ [0x36, 0x35, 0x35, 0x33, 0x35, 0x0A] := by decide

/-! ### Witnesses: hypotheses of the statements that some state and operands meet -/

theorem witness_DecodedWordEncodesBack : checkShape 0x9400060000 = .ok (.pop .d) := by decide

theorem witness_WordPassesExactlyWhenARowMatches :
    (DiwFields.unpack 0x9400060000).wf = true ∧ (DiwFields.unpack 0x9400060001).wf = false := by decide

theorem witness_CanonicalLineDecodesBack :
    Config.default.wf = true ∧ (Instr.store 65535 .d).wf { Config.default with maxLineLen := some 13 } = true := by
  decide

theorem witness_DecodedWordHoldsTheTokens :
    decodeLine .default (ascii ['P', 'R', 'I', 'N', 'T', ' ', 'a', ' ', 'b']) = .ok 0x7800000001 ∧
    decodeLine .default (ascii ['S', 'E', 'T', 'v']) = .ok 0x0000000000 := by decide

/-- The spec's "SETv  a 1" (R101) as pieces, and a line of two spaces. -/
theorem witness_TokensSplitAtEverySpace :
    ([ascii ['S', 'E', 'T', 'v'], [], ascii ['a'], ascii ['1']] ≠ [] ∧
      (∀ t ∈ [ascii ['S', 'E', 'T', 'v'], [], ascii ['a'], ascii ['1']], (0x20 : Byte) ∉ t) ∧
      List.intercalate [0x20] [ascii ['S', 'E', 'T', 'v'], [], ascii ['a'], ascii ['1']] =
        ascii ['S', 'E', 'T', 'v', ' ', ' ', 'a', ' ', '1']) ∧
    ascii [' ', ' '] = List.replicate 2 0x20 := by decide

/-- The line "MOV a 1" (E22). -/
theorem witness_UnknownMnemonicFaults :
    Ready (withProgram [['M', 'O', 'V', ' ', 'a', ' ', '1']]) ∧
    ∀ o : Opc, (tokens (ascii ['M', 'O', 'V', ' ', 'a', ' ', '1']))[0]? ≠ some o.name :=
  ⟨⟨by decide, rfl⟩, fun o => by cases o <;> decide⟩

/-- MAX_LINE_LEN = 8 and "SETv a 10" of 9 bytes (spec/95_test_vectors.md, after E45). -/
theorem witness_OverlongLineIsRefused :
    Ready { withProgram [['S', 'E', 'T', 'v', ' ', 'a', ' ', '1', '0']] with
      cfg := { Config.default with maxLineLen := some 8 } } ∧
    8 < (ascii ['S', 'E', 'T', 'v', ' ', 'a', ' ', '1', '0']).length := ⟨⟨by decide, rfl⟩, by decide⟩

/-- The digits of 65536 meet the first clause, "1x" and the empty token the second. -/
theorem witness_ImmediateIsDecimalValueModulo65536 :
    parseImm .default (ascii ['6', '5', '5', '3', '6']) = .ok 0 ∧
    parseImm .default (ascii ['1', 'x']) = .error .malformedImmediate ∧
    parseImm .default [] = .error .malformedImmediate := by decide

theorem witness_LiteralsAreTruncated : 65636 < Config.default.immLiteralLimit ∧ Config.default.maxLineLen = none := by
  decide

/-- "PRINT x" (E42) for token 1, "SETv a x 2" (E15) for token 2. -/
theorem witness_MalformedOperandFaults :
    Ready (withProgram [['P', 'R', 'I', 'N', 'T', ' ', 'x']]) ∧
    (tokens (ascii ['P', 'R', 'I', 'N', 'T', ' ', 'x']))[0]? = some Opc.print.name ∧
    (tokens (ascii ['P', 'R', 'I', 'N', 'T', ' ', 'x']))[1]? = some (ascii ['x']) ∧
    (tokens (ascii ['S', 'E', 'T', 'v', ' ', 'a', ' ', 'x', ' ', '2']))[2]? = some (ascii ['x']) ∧
    (∀ r : Reg, ascii ['x'] ≠ r.name) ∧ ∀ v, parseImm .default (ascii ['x']) ≠ .ok v := by
  refine ⟨⟨by decide, rfl⟩, by decide, by decide, by decide, fun r => by cases r <;> decide, fun v h => ?_⟩
  have : parseImm .default (ascii ['x']) = .error .malformedImmediate := by decide
  rw [this] at h
  simp at h

/-- "PRINT a b" (E29) for the count, "PRINT 5" (E32) and "SETv a b" for the kinds of operands 1 and 2. -/
theorem witness_WrongShapeFaults :
    checkShape 0x7800000001 = .error .invalidOperandArity ∧ checkShape 0x76000A0000 = .error .invalidOperandType ∧
    checkShape 0x0800000001 = .error .invalidOperandType := by decide

/-- X6, at both ends of the reserved range. -/
theorem witness_ReservedOpcodeIsRefused :
    (DiwFields.unpack 0xC000000000).opc.toNat = 12 ∧ (DiwFields.unpack 0xFFFFFFFFFF).opc.toNat = 15 := by decide

theorem witness_StepRunsTheDecodedInstruction :
    Ready (withProgram [['P', 'O', 'P', ' ', 'd']]) ∧ Fetches (withProgram [['P', 'O', 'P', ' ', 'd']]) (.pop .d) :=
  ⟨⟨by decide, rfl⟩, _, rfl, by decide, by decide⟩

/-- "POP a b" (E30). -/
theorem witness_StepRaisesTheDecodeFault :
    Ready (withProgram [['P', 'O', 'P', ' ', 'a', ' ', 'b']]) ∧
    decode .default (ascii ['P', 'O', 'P', ' ', 'a', ' ', 'b']) = .error .invalidOperandArity :=
  ⟨⟨by decide, rfl⟩, by decide⟩

theorem witness_EndOfInputHalts :
    (Ready State.reset ∧ State.reset.prog.length ≤ State.reset.pc) ∧
    (step State.reset = .next { State.reset with run := .haltedOk }) ∧ boot .default [] = .next State.reset :=
  ⟨⟨⟨by decide, rfl⟩, by decide⟩, rfl, rfl⟩

/-- X2 for the empty line, E45 for the line of one space. -/
theorem witness_OnlyZeroLengthLinesAreSkipped :
    (Ready (withProgram [[]]) ∧ (withProgram [[]]).prog[0]? = some []) ∧
    Ready (withProgram [[' ']]) ∧ (withProgram [[' ']]).prog[0]? = some (List.replicate (0 + 1) 0x20) :=
  ⟨⟨⟨by decide, rfl⟩, rfl⟩, ⟨by decide, rfl⟩, rfl⟩

theorem witness_HaltedBlockTakesNoStep :
    ({ State.reset with run := .haltedOk } : State).cfg.wf = true ∧ State.reset.haltOk.run ≠ .running ∧
    (State.reset.faulted .stackUnderflow).run ≠ .running := by decide

/-- MEM_SIZE = 256 = 2^8 meets the first clause; 200 is no power of two. -/
theorem witness_OnlyValidConfigurationsRun :
    Config.default.memSize = 2 ^ 8 ∧ Config.default.stackSize + 2 ≤ Config.default.memSize ∧
    65536 ≤ Config.default.immLiteralLimit ∧ Config.wf { Config.default with memSize := 200 } = false := by decide

/-- A step that advances, one that skips and one that halts. -/
theorem witness_StepMovesPcByOneOrTakenSkip :
    after (step (withProgram [['P', 'R', 'I', 'N', 'T', ' ', 'a']])) (fun t => (t.run, t.pc)) = some (.running, 1) ∧
    after (step (withProgram [['I', 'F', 'N', 'Z', ' ', 'a']])) (fun t => (t.run, t.pc)) = some (.running, 2) ∧
    after (step (withProgram [['P', 'O', 'P', ' ', 'a']])) (fun t => (t.run, t.pc)) = some (.haltedFault, 0) := by
  decide

theorem witness_RunHaltsWithinProgramLength :
    Ready (withProgram [['P', 'R', 'I', 'N', 'T', ' ', 'a']]) ∧ Config.default.wf = true := ⟨⟨by decide, rfl⟩, by decide⟩

/-- A fault of an instruction (also for FaultCausesByInstruction): POP of an empty stack. -/
theorem witness_FaultWritesOnlyCauseAndRun :
    ∃ t, step (withProgram [['P', 'O', 'P', ' ', 'a']]) = .next t ∧ t.run = .haltedFault := ⟨_, rfl, rfl⟩

/-- A fault of a line that does not decode: E18. -/
theorem witness_FaultCausesByInstruction :
    ∃ t, step (withProgram [['s', 'e', 't', 'v', ' ', 'a', ' ', '1']]) = .next t ∧ t.run = .haltedFault := ⟨_, rfl, rfl⟩

theorem witness_StepKeepsProgramAndConfiguration :
    ∃ t, step (withProgram [['P', 'U', 'S', 'H', ' ', 'a']]) = .next t := ⟨_, rfl⟩

/-- K4's first step and the same with another skipped line. -/
theorem witness_StepReadsOnlyTheLineAtPc :
    let s := withProgram [['I', 'F', 'N', 'Z', ' ', 'a'], ['P', 'O', 'P', ' ', 'a']]
    let q := [ascii ['I', 'F', 'N', 'Z', ' ', 'a'], ascii ['H', 'A', 'L', 'T']]
    q[s.pc]? = s.prog[s.pc]? ∧ (q[s.pc + 1]? = some [] ↔ s.prog[s.pc + 1]? = some []) ∧ ∃ t, step s = .next t :=
  ⟨by decide, by decide, _, rfl⟩

theorem witness_ConformingProgramsAreNeverRefused :
    let s := withProgram [['I', 'F', 'N', 'Z', ' ', 'a'], ['P', 'O', 'P', ' ', 'a']]
    s.cfg.maxLineLen = none ∧ (∀ line ∈ s.prog, line ≠ []) ∧ s.cause ≠ .refused ∧ ∃ t, step s = .next t :=
  ⟨by decide, by decide, by decide, _, rfl⟩

/-- The invariant holds with words on the stack and in the heap, and such a state steps. -/
theorem witness_StepKeepsInvariant :
    let s := { withProgram [['P', 'U', 'S', 'H', ' ', 'a']] with
      sp := 2, regs := ⟨258, 0, 0, 0⟩, mem := [(0, 7), (64, 1), (255, 2)] }
    StateInv s ∧ ∃ t, step s = .next t :=
  ⟨⟨by decide, by decide, by decide, by decide, by decide, by decide, by decide⟩, _, rfl⟩

theorem witness_ResetAndBootMeetInvariant : ∃ s, boot .default [ascii ['P', 'O', 'P', ' ', 'a']] = .next s := ⟨_, rfl⟩

theorem witness_RegisterChangesOnlyByItsWriter :
    ∃ t, step (withProgram [['S', 'E', 'T', 'v', ' ', 'a', ' ', '1']]) = .next t ∧ t.reg .a ≠ State.reset.reg .a :=
  ⟨_, rfl, by decide⟩

/-- A PUSH and a STORE that change memory. -/
theorem witness_MemoryChangesOnlyByPushAndStore :
    (∃ t, step { withProgram [['P', 'U', 'S', 'H', ' ', 'a']] with regs := ⟨1, 0, 0, 0⟩ } = .next t ∧
      Memory.readByte t.mem 0 ≠ Memory.readByte [] 0) ∧
    (∃ t, step { withProgram [['S', 'T', 'O', 'R', 'E', ' ', '9', '9', ' ', 'a']] with regs := ⟨1, 0, 0, 0⟩ } =
      .next t ∧ Memory.readByte t.mem 99 ≠ Memory.readByte [] 99) := ⟨⟨_, rfl, by decide⟩, _, rfl, by decide⟩

theorem witness_OutputChangesOnlyByPrint :
    ∃ t, step (withProgram [['P', 'R', 'I', 'N', 'T', ' ', 'a']]) = .next t ∧ t.out = [0] := ⟨_, rfl, rfl⟩

theorem witness_StackPointerChangesOnlyByPushAndPop :
    (∃ t, step (withProgram [['P', 'U', 'S', 'H', ' ', 'a']]) = .next t ∧ t.sp = 2) ∧
    (∃ t, step { withProgram [['P', 'O', 'P', ' ', 'a']] with sp := 2 } = .next t ∧ t.sp = 0) :=
  ⟨⟨_, rfl, rfl⟩, _, rfl, rfl⟩

/-- Each premise at its boundary: the last push, the first heap address, memories that differ in the last stack byte
only and in the first heap byte only, and a pop of a full stack. -/
theorem witness_StackAndHeapAreDisjoint :
    (∃ t, exec (.push .a) { State.reset with sp := 62 } = .next t ∧ t.run = .running) ∧
    (∃ t, exec (.store 64 .a) State.reset = .next t ∧ t.run = .running) ∧
    (∀ a, 64 ≤ a → Memory.readByte [(63, 1)] a = Memory.readByte [] a) ∧
    (∃ t, exec (.load 64 .a) State.reset = .next t ∧ t.run = .running) ∧
    (∀ a, a < 64 → Memory.readByte [(64, 1)] a = Memory.readByte [] a) ∧
    (∃ t, exec (.pop .a) { State.reset with sp := 64 } = .next t ∧ t.run = .running) := by
  refine ⟨⟨_, rfl, rfl⟩, ⟨_, rfl, rfl⟩, fun a h => ?_, ⟨_, rfl, rfl⟩, fun a h => ?_, ⟨_, rfl, rfl⟩⟩
  · rw [Memory.readByte_cons, if_neg (by show 63 ≠ a; omega)]
  · rw [Memory.readByte_cons, if_neg (by show 64 ≠ a; omega)]

/-- Two different states that agree but for a popped byte, and a step of the first. -/
theorem witness_FreeStackBytesAreUnobservable :
    let s := withProgram [['P', 'U', 'S', 'H', ' ', 'a']]
    s ≠ { s with mem := [(5, 9)] } ∧ SameButFreeStack s { s with mem := [(5, 9)] } ∧ ∃ t, step s = .next t := by
  refine ⟨by decide, ⟨rfl, fun a h => absurd h (Nat.not_lt_zero a), fun a h => ?_⟩, _, rfl⟩
  have h : 64 ≤ a := h
  show Memory.readByte [(5, 9)] a = Memory.readByte [] a
  rw [Memory.readByte_cons, if_neg (by show 5 ≠ a; omega)]

theorem witness_StatusPortShowsRunAndCause :
    statusPort State.reset = (0, 0) ∧ statusPort (State.reset.faulted .refused) = (2, 11) := by decide

theorem witness_OutputEventIsRenderedInDecimal : renderEvent 10 = [0x31, 0x30, 0x0A] := by decide

/-- A file that ends in a line feed, one that does not, and the empty file. -/
theorem witness_FileSplitsIntoLines :
    splitLines [0x61, 0x0A] = [[0x61]] ∧ splitLines [0x61, 0x0A, 0x62] = [[0x61], [0x62]] ∧ splitLines [] = [] := by
  decide

/-- "SETv a 10" has 9 bytes: a limit of 9 admits it and a limit of 8 does not. -/
theorem witness_PlacedTableWordIsRunNext :
    (Ready { State.reset with cfg := { Config.default with maxLineLen := some 9 } } ∧
      (Instr.setV .a 10).wf { Config.default with maxLineLen := some 9 } = true) ∧
    Ready { State.reset with cfg := { Config.default with maxLineLen := some 8 } } ∧
      (Instr.setV .a 10).wf { Config.default with maxLineLen := some 8 } = false :=
  ⟨⟨⟨by decide, rfl⟩, by decide⟩, ⟨by decide, rfl⟩, by decide⟩

theorem witness_RepeatedAddsClampAndLargeSubsZero :
    65535 < (40000 : Word).toNat + (30000 : Word).toNat ∧ (State.reset.reg .a).toNat < (5 : Word).toNat := by decide

/-- Each clause of IFNZ: zero with a next line, zero with an empty next line, nonzero. -/
theorem witness_IfnzSkipsOnZero :
    (State.reset.reg .a = 0 ∧ State.reset.prog[State.reset.pc + 1]? ≠ some []) ∧
    (withProgram [['I', 'F', 'N', 'Z', ' ', 'a'], []]).prog[0 + 1]? = some [] ∧
    ({ State.reset with regs := ⟨1, 0, 0, 0⟩ } : State).reg .a ≠ 0 := by decide

/-- K3. -/
theorem witness_SkipAtEndOfInputHalts :
    let s := withProgram [['I', 'F', 'N', 'Z', ' ', 'a']]
    Ready s ∧ Fetches s (.ifnz .a) ∧ s.reg .a = 0 ∧ s.pc + 1 = s.prog.length :=
  ⟨⟨by decide, rfl⟩, ⟨_, rfl, by decide, by decide⟩, by decide, by decide⟩

/-- The last free stack word and the full stack. -/
theorem witness_PushStoresTheRegister :
    ({ State.reset with sp := 62 } : State).sp + 2 ≤ State.reset.cfg.stackSize ∧
    State.reset.cfg.stackSize < ({ State.reset with sp := 63 } : State).sp + 2 := by decide

/-- The last word on the stack and the empty stack. -/
theorem witness_PopLoadsTheTop : 2 ≤ ({ State.reset with sp := 2 } : State).sp ∧ State.reset.sp < 2 := by decide

/-- The first and last heap words, the last stack byte and the last byte of memory; the clauses do not overlap. -/
theorem witness_LoadReadsTheHeapWord :
    (State.reset.cfg.stackSize ≤ (64 : Word).toNat ∧ (64 : Word).toNat + 2 ≤ State.reset.cfg.memSize) ∧
    (State.reset.cfg.stackSize ≤ (254 : Word).toNat ∧ (254 : Word).toNat + 2 ≤ State.reset.cfg.memSize) ∧
    (63 : Word).toNat < State.reset.cfg.stackSize ∧
    (State.reset.cfg.stackSize ≤ (255 : Word).toNat ∧ State.reset.cfg.memSize < (255 : Word).toNat + 2) := by decide

/-- The same addresses, by the outcome of a STORE. -/
theorem witness_StoreWritesTheHeapWord :
    after (execStore 64 .a State.reset) (·.run) = some .running ∧
    after (execStore 254 .a State.reset) (·.run) = some .running ∧
    after (execStore 63 .a State.reset) (·.cause) = some .stackRegionViolationWrite ∧
    after (execStore 255 .a State.reset) (·.cause) = some .heapAddressOutOfRange := by decide

/-- S7's shape: PUSH, SETv, then a POP. -/
theorem witness_PopReturnsThePushedValue :
    State.reset.sp + 2 ≤ State.reset.cfg.stackSize ∧ (∀ i ∈ [Instr.setV .a 0], isStackInstr i = false) ∧
    ∃ s₁ s₂, exec (.push .a) State.reset = .next s₁ ∧ execAll [.setV .a 0] s₁ = .next s₂ :=
  ⟨by decide, by decide, _, _, rfl, rfl⟩

/-- S6's shape: STORE, a STORE two bytes above, then a LOAD. -/
theorem witness_LoadReturnsTheStoredValue :
    State.reset.cfg.stackSize ≤ (100 : Word).toNat ∧ (100 : Word).toNat + 2 ≤ State.reset.cfg.memSize ∧
    (∀ i ∈ [Instr.store 102 .b], storesNear 100 i = false) ∧ storesNear 100 (.store 101 .b) = true ∧
    ∃ s₁ s₂, exec (.store 100 .a) State.reset = .next s₁ ∧ execAll [.store 102 .b] s₁ = .next s₂ :=
  ⟨by decide, by decide, by decide, by decide, _, _, rfl, rfl⟩

/-- The highest address whose overlapping word fits. -/
theorem witness_OverlappingHeapWordsAreExactPerByte :
    State.reset.cfg.stackSize ≤ (253 : Word).toNat ∧ (253 : Word).toNat + 3 ≤ State.reset.cfg.memSize ∧
    (253 : Word).toNat + 1 < 65536 := by decide

theorem witness_StackHoldsHalfItsSizeInWords :
    State.reset.sp = 0 ∧ State.reset.run = .running ∧ 32 ≤ State.reset.cfg.stackSize / 2 := by decide

end Sys2Proof.Tests
end

section
/-! Lines with an unknown mnemonic (spec/30_encoding.md R103): they fail to decode before any operand is
classified. -/

namespace Sys2Proof

/-- R124: a line is too long exactly when MAX_LINE_LEN is set and it does not fit. -/
theorem lineTooLong_eq_false_iff {c : Config} {line : Line} :
    lineTooLong c line = false ↔ ∀ m, c.maxLineLen = some m → line.length ≤ m := by
  unfold lineTooLong
  cases c.maxLineLen <;> simp

/-- R103, for the decoder alone: of the outcomes of `decodeLine`, an unknown mnemonic leaves only this one. -/
theorem decodeLine_of_unknown_mnemonic {c : Config} {line : Line} (hlen : lineTooLong c line = false)
    (hm : ∀ o : Opc, (tokens line)[0]? ≠ some o.name) : decodeLine c line = .error .unknownOpcode := by
  cases h : decodeLine c line with
  | ok w =>
    obtain ⟨o, ops, -, -, -, htok, -⟩ := decodeLine_ok h
    exact absurd (by simp [htok]) (hm o)
  | error e =>
    obtain ⟨htoo, -⟩ | ⟨-, -, rfl⟩ | ⟨-, ⟨o, ho⟩, -⟩ := decodeLine_error h
    · simp [hlen] at htoo
    · rfl
    · exact absurd ho (hm o)

/-- A fault of the line decoder is the fault of the whole decoding: the shape check is not reached (R109). -/
theorem decode_of_decodeLine_error {c : Config} {line : Line} {e : Cause} (h : decodeLine c line = .error e) :
    decode c line = .error e := by
  rw [decode, h]

end Sys2Proof

namespace Sys2Proof.Machine

/-- Settles O7: the line fails to decode with UnknownOpcode, and a step raises the cause its line fails with. -/
theorem unknownMnemonicFaults : Obligations.UnknownMnemonicFaults := by
  intro s line hs hl hne hlen hm
  exact step_of_decode_error hs hl hne
    (decode_of_decodeLine_error (decodeLine_of_unknown_mnemonic (lineTooLong_eq_false_iff.2 hlen) hm))

end Sys2Proof.Machine
end

section
/-! The execution engine (spec/40_execution_engine.md R151, R153, R158): how PC and RUN move in one step. -/

namespace Sys2Proof.Machine

/-! ### What the line at PC decodes to -/

/-- The line at PC decodes to at most one instruction. -/
theorem Fetches.unique {s : State} {i j : Instr} (hi : Fetches s i) (hj : Fetches s j) : i = j := by
  obtain ⟨line, hl, -, hd⟩ := hi
  obtain ⟨line', hl', -, hd'⟩ := hj
  obtain rfl : line = line' := Option.some.inj (hl.symm.trans hl')
  exact Except.ok.inj (hd.symm.trans hd')

/-- R152: an empty line holds no instruction. -/
theorem not_fetches_of_empty_line {s : State} (h : s.prog[s.pc]? = some []) (i : Instr) : ¬ Fetches s i := by
  rintro ⟨line, hl, hne, -⟩
  exact hne (Option.some.inj (hl.symm.trans h))

/-! ### PC and RUN after an instruction -/

/-- R158, for one instruction's meaning: an instruction that does not fault keeps RUN, and advances PC by 1 unless
it is the one instruction that may skip. -/
theorem exec_faults_or_moves_pc {i : Instr} {s t : State} (h : exec i s = .next t) :
    (∃ c, t = s.faulted c) ∨
    (t.run = s.run ∧
      ((t.pc = s.pc + 1 ∧ ∀ rs, i = .ifnz rs → s.reg rs ≠ 0) ∨
        (t.pc = s.pc + 2 ∧ ∃ rs, i = .ifnz rs ∧ s.reg rs = 0))) := by
  obtain ⟨c, -, ht⟩ | ⟨rs, hi, hz, -, rfl⟩ | ⟨rs, rfl, hnz, rfl⟩ | ⟨rs, rfl, rfl⟩ | ⟨rd, v, hd, -, rfl⟩ |
    ⟨rs, rfl, -, rfl⟩ | ⟨rd, rfl, -, rfl⟩ | ⟨addr, rs, rfl, -, -, rfl⟩ := exec_cases h
  · exact .inl ⟨c, ht⟩
  · exact .inr ⟨rfl, .inr ⟨rfl, rs, hi, hz⟩⟩
  · exact .inr ⟨rfl, .inl ⟨rfl, fun rs' h' => Instr.ifnz.inj h' ▸ hnz⟩⟩
  · exact .inr ⟨rfl, .inl ⟨rfl, nofun⟩⟩
  · exact .inr ⟨rfl, .inl ⟨rfl, fun rs hi => by simp [hi, dest] at hd⟩⟩
  · exact .inr ⟨rfl, .inl ⟨rfl, nofun⟩⟩
  · exact .inr ⟨rfl, .inl ⟨rfl, nofun⟩⟩
  · exact .inr ⟨rfl, .inl ⟨rfl, nofun⟩⟩

/-- An instruction never halts the block with HALTED_OK: it keeps RUN or faults. -/
theorem exec_run_ne_haltedOk {i : Instr} {s t : State} (hs : s.run = .running) (h : exec i s = .next t) :
    t.run ≠ .haltedOk := by
  obtain ⟨c, rfl⟩ | ⟨hrun, -⟩ := exec_faults_or_moves_pc h
  · simp
  · simp [hrun, hs]

/-- Settles O20: of what a step can do, only running a decoded IFNZ skips. -/
theorem stepMovesPcByOneOrTakenSkip : Obligations.StepMovesPcByOneOrTakenSkip := by
  intro s t h
  have hrun : s.run = .running := (ready_of_step h).2
  obtain ⟨-, rfl⟩ | ⟨hempty, rfl⟩ | ⟨-, c, -, -, -, rfl⟩ | ⟨i, hf, hi⟩ := step_cases h
  · exact .inr ⟨by simp, rfl⟩
  · exact .inl ⟨hrun, .inl ⟨rfl, fun rs hf => absurd hf (not_fetches_of_empty_line hempty _)⟩⟩
  · exact .inr ⟨by simp, rfl⟩
  · obtain ⟨c, rfl⟩ | ⟨htr, ⟨hpc, hnz⟩ | ⟨hpc, rs, rfl, hz⟩⟩ := exec_faults_or_moves_pc hi
    · exact .inr ⟨by simp, rfl⟩
    · exact .inl ⟨htr.trans hrun, .inl ⟨hpc, fun rs hf' => hnz rs (hf.unique hf')⟩⟩
    · exact .inl ⟨htr.trans hrun, .inr ⟨hpc, rs, hf, hz⟩⟩

/-- Settles O15: the decoder and the shape check are one decoding (`runLine_eq`), whose fault the step takes. -/
theorem stepRaisesTheDecodeFault : Obligations.StepRaisesTheDecodeFault :=
  fun _ _ _ hs hl hne hd => step_of_decode_error hs hl hne hd

/-! ### End of input -/

theorem step_of_end_of_input {s : State} (hs : Ready s) (hend : s.prog.length ≤ s.pc) :
    step s = .next s.haltOk := by
  rw [step_of_ready hs, runningStep, fetchLine, List.getElem?_eq_none hend]

/-- R151: `halt_ok()` is performed at end of input only. -/
theorem end_of_input_of_haltedOk {s t : State} (h : step s = .next t) (ht : t.run = .haltedOk) :
    s.prog.length ≤ s.pc := by
  have hrun : s.run = .running := (ready_of_step h).2
  obtain ⟨hend, -⟩ | ⟨-, rfl⟩ | ⟨-, c, -, -, -, rfl⟩ | ⟨i, -, hi⟩ := step_cases h
  · exact hend
  · simp [hrun] at ht
  · simp at ht
  · exact absurd ht (exec_run_ne_haltedOk hrun hi)

/-- R16, R344: a boot that is not refused gives the reset state with the program loaded, under a valid
configuration. -/
theorem boot_eq_next {c : Config} {prog : List Line} {s : State} (h : boot c prog = .next s) :
    c.wf = true ∧ s = { State.reset with prog := prog, cfg := c } := by
  unfold boot at h
  split at h
  · rename_i hc
    injection h with h
    exact ⟨hc, h.symm⟩
  · simp at h

/-- Settles O16: the three clauses are `step_of_end_of_input`, its converse `end_of_input_of_haltedOk`, and the first
at the booted state of a program of zero lines, where PC = 0 is already past the end. -/
theorem endOfInputHalts : Obligations.EndOfInputHalts := by
  refine ⟨fun s => step_of_end_of_input, fun s t => end_of_input_of_haltedOk, fun c s hboot => ?_⟩
  obtain ⟨hc, rfl⟩ := boot_eq_next hboot
  exact step_of_end_of_input ⟨hc, rfl⟩ (Nat.le_refl 0)

end Sys2Proof.Machine
end

section
/-! The register instructions (spec/41_register_arith.md R205 to R210): each writes one value to its destination
register and advances PC. -/

namespace Sys2Proof.Machine

/-! ### What each register instruction writes -/

theorem exec_setV (rd : Reg) (imm : Word) (s : State) :
    exec (.setV rd imm) s = .next (s.setReg rd imm).advance := rfl

theorem exec_setR (rd rs : Reg) (s : State) :
    exec (.setR rd rs) s = .next (s.setReg rd (s.reg rs)).advance := rfl

theorem exec_addV (rd : Reg) (imm : Word) (s : State) :
    exec (.addV rd imm) s = .next (s.setReg rd (satAdd (s.reg rd) imm)).advance := rfl

theorem exec_addR (rd rs : Reg) (s : State) :
    exec (.addR rd rs) s = .next (s.setReg rd (satAdd (s.reg rd) (s.reg rs))).advance := rfl

theorem exec_subV (rd : Reg) (imm : Word) (s : State) :
    exec (.subV rd imm) s = .next (s.setReg rd (satSub (s.reg rd) imm)).advance := rfl

theorem exec_subR (rd rs : Reg) (s : State) :
    exec (.subR rd rs) s = .next (s.setReg rd (satSub (s.reg rd) (s.reg rs))).advance := rfl

/-! ### Encoding, frame and clamp -/

/-- R120, R123: how an instruction is encoded, read off its fields; the 40-bit layout drops out. -/
theorem encodedAs_iff {i : Instr} {mnemonic : List Char} {operands : List Token} {opc : BitVec 4}
    {nops : BitVec 2} {t1 t2 : BitVec 1} :
    EncodedAs i mnemonic operands opc nops t1 t2 ↔
      encodeLine i = joinTokens (ascii mnemonic :: operands) ∧ (encodeFields i).opc = opc ∧
        (encodeFields i).nops = nops ∧ (encodeFields i).t1 = t1 ∧ (encodeFields i).t2 = t2 := by
  rw [EncodedAs, unpack_encode]

/-- The frame the register instructions share: an instruction that writes `rd` and advances completes, and changes
`rd` and PC only. -/
theorem exec_frame_of_setReg {i : Instr} {s : State} {rd : Reg} {v : Word}
    (h : exec i s = .next (s.setReg rd v).advance) :
    ∃ t, exec i s = .next t ∧ t.reg rd = v ∧ t.pc = s.pc + 1 ∧ KeepsRegsBut [rd] s t ∧ t.sp = s.sp ∧
      KeepsMemory s t ∧ t.out = s.out ∧ KeepsControl s t := by
  have hregs : KeepsRegsBut [rd] s (s.setReg rd v).advance := fun r hr =>
    s.setReg_reg_other rd r v fun e => hr (List.mem_singleton.2 e)
  exact ⟨_, h, s.setReg_reg_same rd v, rfl, hregs, rfl, fun _ => rfl, rfl, rfl, rfl, rfl, rfl⟩

/-- R202 over the integers, where the difference may be negative before it is clamped. -/
theorem satSub_toInt (x y : Word) : ((satSub x y).toNat : Int) = max ((x.toNat : Int) - y.toNat) 0 := by
  rw [satSub_toNat]
  omega

/-! ### The obligations -/

/-- Settles O41: the sum of the two values read from `s` is what the shared frame writes to `rd`, and
`satAdd_toNat` is its clamp; the same register as both operands needs no case of its own. -/
theorem addInstructionsSaturate : Obligations.AddInstructionsSaturate := by
  refine ⟨by decide, fun rd imm s => ⟨encodedAs_iff.2 ⟨rfl, rfl, rfl, rfl, rfl⟩, ?_⟩,
    fun rd rs s => ⟨encodedAs_iff.2 ⟨rfl, rfl, rfl, rfl, rfl⟩, ?_⟩⟩
  · obtain ⟨t, ht, hrd, hframe⟩ := exec_frame_of_setReg (exec_addV rd imm s)
    exact ⟨t, ht, by rw [hrd, satAdd_toNat], hframe⟩
  · obtain ⟨t, ht, hrd, hframe⟩ := exec_frame_of_setReg (exec_addR rd rs s)
    exact ⟨t, ht, by rw [hrd, satAdd_toNat], hframe⟩

/-- Settles O42: as for the sums, with the clamp of `satSub_toInt`. -/
theorem subInstructionsSaturate : Obligations.SubInstructionsSaturate := by
  refine ⟨fun rd imm s => ⟨encodedAs_iff.2 ⟨rfl, rfl, rfl, rfl, rfl⟩, ?_⟩,
    fun rd rs s => ⟨encodedAs_iff.2 ⟨rfl, rfl, rfl, rfl, rfl⟩, ?_⟩⟩
  · obtain ⟨t, ht, hrd, hframe⟩ := exec_frame_of_setReg (exec_subV rd imm s)
    exact ⟨t, ht, by rw [hrd, satSub_toInt], hframe⟩
  · obtain ⟨t, ht, hrd, hframe⟩ := exec_frame_of_setReg (exec_subR rd rs s)
    exact ⟨t, ht, by rw [hrd, satSub_toInt], hframe⟩

/-- Settles O40: the value written is the immediate or the source's old value, so the shared frame is the whole
statement. -/
theorem setInstructionsAssign : Obligations.SetInstructionsAssign :=
  ⟨⟨by decide, by decide⟩,
    fun rd imm s => ⟨encodedAs_iff.2 ⟨rfl, rfl, rfl, rfl, rfl⟩, exec_frame_of_setReg (exec_setV rd imm s)⟩,
    fun rd rs s => ⟨encodedAs_iff.2 ⟨rfl, rfl, rfl, rfl, rfl⟩, exec_frame_of_setReg (exec_setR rd rs s)⟩⟩

end Sys2Proof.Machine
end

section
/-! Skip and output (spec/42_skip_print.md R240 to R248): a taken skip, at the last line in particular, and PRINT. -/

namespace Sys2Proof.Machine

/-- R240: the skip is taken unless the skipped line exists and is empty. -/
theorem exec_ifnz_of_zero {rs : Reg} {s : State} (hz : s.reg rs = 0) (hne : s.prog[s.pc + 1]? ≠ some []) :
    exec (.ifnz rs) s = .next s.skip := by
  have hnext : ¬ nextLineEmpty s = true := fun h => hne (of_decide_eq_true h)
  rw [exec, execIfnz, if_pos hz, if_neg hnext]

theorem exec_print (rs : Reg) (s : State) : exec (.print rs) s = .next (s.emit (s.reg rs)).advance := rfl

/-- Settles O47: past the last line there is no empty line to refuse the skip, and the state it leads to is again
ready, with PC beyond the end of input. -/
theorem skipAtEndOfInputHalts : Obligations.SkipAtEndOfInputHalts := by
  intro rs s hs hf hz hlast
  have hnone : s.prog[s.pc + 1]? = none := List.getElem?_eq_none hlast.ge
  have hskip : step s = .next s.skip := by
    rw [step_of_fetches hs hf, exec_ifnz_of_zero hz (by simp [hnone])]
  have hpc : s.skip.pc = s.prog.length + 1 := by rw [State.skip_pc, ← hlast]
  have hend : s.skip.prog.length ≤ s.skip.pc := by rw [hpc]; exact Nat.le_succ _
  exact ⟨s.skip, hskip, hpc, step_of_end_of_input (s := s.skip) hs hend⟩

/-- Settles O48: the frame is `exec_print` itself, an emit and an advance. -/
theorem printEmitsTheRegister : Obligations.PrintEmitsTheRegister :=
  fun rs s => ⟨encodedAs_iff.2 ⟨rfl, rfl, rfl, rfl, rfl⟩, exec_print rs s⟩

end Sys2Proof.Machine
end

section
/-! The stack instructions (spec/43_stack_heap.md R260, R261): PUSH writes one word at SP and no register, POP
writes one register and no memory, and neither touches anything else but SP and PC. -/

namespace Sys2Proof.Machine

theorem exec_push (rs : Reg) (s : State) : exec (.push rs) s = execPush rs s := rfl

theorem exec_pop (rd : Reg) (s : State) : exec (.pop rd) s = execPop rd s := rfl

/-! ### Bytes of a written word, and frames -/

/-- R63: the byte at the address of a written word is the word's low half. -/
theorem Memory.readByte_writeWord_low_toNat (m : Memory) (a : Nat) (v : Word) :
    (Memory.readByte (Memory.writeWord m a v) a).toNat = v.toNat % 256 := by
  rw [Memory.readByte_writeWord, if_neg (Nat.ne_of_lt (Nat.lt_succ_self a)), if_pos rfl, lowByte_toNat]

/-- R63: the byte above the address of a written word is the word's high half. -/
theorem Memory.readByte_writeWord_high_toNat (m : Memory) (a : Nat) (v : Word) :
    (Memory.readByte (Memory.writeWord m a v) (a + 1)).toNat = v.toNat / 256 := by
  rw [Memory.readByte_writeWord, if_pos rfl, highByte_toNat]

theorem State.storeWord_keepsMemoryOutsideWord (s : State) (a : Nat) (v : Word) :
    KeepsMemoryOutsideWord a s (s.storeWord a v) :=
  fun _ hlow hhigh => Memory.readByte_writeWord_outside s.mem v hlow hhigh

theorem State.setReg_keepsRegsBut (s : State) (rd : Reg) (v : Word) : KeepsRegsBut [rd] s (s.setReg rd v) :=
  fun r hr => s.setReg_reg_other rd r v fun e => hr (List.mem_singleton.2 e)

/-! ### The obligations -/

/-- Settles O49: with room, the next state is a word store at SP, whose two bytes and whose frame are the memory
laws; without room the validator answers before anything is written. -/
theorem pushStoresTheRegister : Obligations.PushStoresTheRegister := by
  refine fun rs s => ⟨encodedAs_iff.2 ⟨rfl, rfl, rfl, rfl, rfl⟩, rfl, fun hroom => ?_, fun hfull => ?_⟩
  · have hstep := (exec_push rs s).trans (execPush_of_room rs hroom)
    have hlow := Memory.readByte_writeWord_low_toNat s.mem s.sp (s.reg rs)
    have hhigh := Memory.readByte_writeWord_high_toNat s.mem s.sp (s.reg rs)
    have hmem := s.storeWord_keepsMemoryOutsideWord s.sp (s.reg rs)
    exact ⟨_, hstep, hlow, hhigh, rfl, rfl, fun _ _ => rfl, hmem, rfl, rfl, rfl, rfl, rfl⟩
  · exact (exec_push rs s).trans (execPush_of_full rs hfull)

/-- Settles O50: with a word on the stack, the next state is one register write of the word at `SP - 2`, so memory
is the old one (R77); `SP - 1` is the byte above that address because SP is at least 2. -/
theorem popLoadsTheTop : Obligations.PopLoadsTheTop := by
  refine fun rd s => ⟨encodedAs_iff.2 ⟨rfl, rfl, rfl, rfl, rfl⟩, rfl, fun hword => ?_, fun hempty => ?_⟩
  · have hstep := (exec_pop rd s).trans (execPop_of_nonempty rd hword)
    have hhigh : s.sp - 2 + 1 = s.sp - 1 := by omega
    have hvalue := Memory.readWord_toNat s.mem (s.sp - 2)
    rw [hhigh, ← s.setReg_reg_same rd (Memory.readWord s.mem (s.sp - 2))] at hvalue
    have hregs := s.setReg_keepsRegsBut rd (Memory.readWord s.mem (s.sp - 2))
    exact ⟨_, hstep, hvalue, Nat.sub_add_cancel hword, rfl, hregs, fun _ => rfl, rfl, rfl, rfl, rfl, rfl⟩
  · exact (exec_pop rd s).trans (execPop_of_empty rd hempty)

end Sys2Proof.Machine
end

section
/-! The shape check's causes (spec/40_execution_engine.md R154, R155, R160). -/

namespace Sys2Proof

/-- Why a word has no instruction: a reserved opcode or no table row, its operand count, or an operand kind. -/
theorem checkFields_error {f : DiwFields} {e : Cause} (h : checkFields f = .error e) :
    e = .refused ∨ e = .invalidOperandArity ∨ e = .invalidOperandType := by
  unfold checkFields at h
  split at h
  · exact .inl (Except.error.inj h).symm
  · split at h
    · exact .inr (.inl (Except.error.inj h).symm)
    · split at h
      · split at h
        · simp at h
        · exact .inl (Except.error.inj h).symm
      · exact .inr (.inr (Except.error.inj h).symm)

/-- A decoding that fails has a cause: neither the line decoder nor the shape check answers NONE. -/
theorem decode_error_ne_none {c : Config} {line : Line} {e : Cause} (h : decode c line = .error e) : e ≠ .none := by
  unfold decode at h
  split at h
  · rename_i e' hline
    obtain rfl : e' = e := Except.error.inj h
    obtain ⟨-, rfl⟩ | ⟨-, -, rfl⟩ | ⟨-, -, rfl⟩ := decodeLine_error hline <;> simp
  · obtain rfl | rfl | rfl := checkFields_error h <;> simp

end Sys2Proof
end

section
/-! Faults (spec/60_exceptions.md R302, R310): a step that faults takes one fault, and that fault has a cause. -/

namespace Sys2Proof.Machine

theorem none_not_mem_raisable (i : Instr) : Cause.none ∉ raisable i := by
  cases i <;> simp [raisable]

/-- An instruction takes one of its own faults or keeps RUN. -/
theorem exec_faults_or_keeps_run {i : Instr} {s t : State} (h : exec i s = .next t) :
    (∃ c ∈ raisable i, t = s.faulted c) ∨ t.run = s.run := by
  obtain hfault | ⟨rs, -, -, -, rfl⟩ | ⟨rs, -, -, rfl⟩ | ⟨rs, -, rfl⟩ | ⟨rd, v, -, -, rfl⟩ | ⟨rs, -, -, rfl⟩ |
    ⟨rd, -, -, rfl⟩ | ⟨addr, rs, -, -, -, rfl⟩ := exec_cases h
  · exact .inl hfault
  all_goals exact .inr rfl

/-- A step that ends in HALTED_FAULT takes one fault of the non-empty line at PC: its decode fault, or a fault of the
instruction it decodes to. -/
theorem step_to_haltedFault {s t : State} (h : step s = .next t) (ht : t.run = .haltedFault) :
    ∃ line c, s.prog[s.pc]? = some line ∧ line ≠ [] ∧ t = s.faulted c ∧
      (decode s.cfg line = .error c ∨ ∃ i, decode s.cfg line = .ok i ∧ c ∈ raisable i) := by
  have hrun : s.run = .running := (ready_of_step h).2
  obtain ⟨-, rfl⟩ | ⟨-, rfl⟩ | ⟨line, c, hl, hne, hd, rfl⟩ | ⟨i, ⟨line, hl, hne, hd⟩, hi⟩ := step_cases h
  · simp at ht
  · simp [hrun] at ht
  · exact ⟨line, c, hl, hne, rfl, .inl hd⟩
  · obtain ⟨c, hc, rfl⟩ | hkeeps := exec_faults_or_keeps_run hi
    · exact ⟨line, c, hl, hne, rfl, .inr ⟨i, hd, hc⟩⟩
    · simp [hkeeps, hrun] at ht

/-- Settles O22: the next state is `s.faulted c`, which is the frame, and neither a failed decoding nor an
instruction has the cause NONE. -/
theorem faultWritesOnlyCauseAndRun : Obligations.FaultWritesOnlyCauseAndRun := by
  intro s t h ht
  obtain ⟨line, c, -, -, rfl, hd | ⟨i, -, hc⟩⟩ := step_to_haltedFault h ht
  · exact ⟨decode_error_ne_none hd, rfl⟩
  · exact ⟨fun (hnone : c = .none) => none_not_mem_raisable i (hnone ▸ hc), rfl⟩

end Sys2Proof.Machine
end

section
/-! The word and the instruction (spec/30_encoding.md R112 to R123; spec/40_execution_engine.md R154, R155, R160):
the shape check accepts exactly the words of R123's table, and gives each its instruction. -/

namespace Sys2Proof

/-- The opcode of an instruction (R102). -/
def Instr.opc : Instr → Opc
  | .setV .. => .setV
  | .setR .. => .setR
  | .addV .. => .addV
  | .addR .. => .addR
  | .subV .. => .subV
  | .subR .. => .subR
  | .ifnz .. => .ifnz
  | .print .. => .print
  | .push .. => .push
  | .pop .. => .pop
  | .load .. => .load
  | .store .. => .store

/-! ### The encoder's fields pass every check -/

theorem encodeFields_opc (i : Instr) : (encodeFields i).opc = i.opc.code := by cases i <;> rfl

theorem encodeFields_nops (i : Instr) : (encodeFields i).nops.toNat = i.opc.shape.length := by cases i <;> rfl

theorem tagsMatch_encodeFields (i : Instr) : tagsMatch i.opc (encodeFields i) = true := by cases i <;> rfl

theorem assemble_encodeFields (i : Instr) : assemble i.opc (encodeFields i) = some i := by
  cases i <;> simp [Instr.opc, encodeFields, assemble]

/-! ### The shape check, one equation per outcome -/

theorem checkFields_of_reserved {f : DiwFields} (h : Opc.ofCode f.opc = none) : checkFields f = .error .refused := by
  rw [checkFields, h]

section
variable {f : DiwFields} {o : Opc} (hopc : f.opc = o.code)
include hopc

theorem checkFields_of_wrong_count (hn : f.nops.toNat ≠ o.shape.length) :
    checkFields f = .error .invalidOperandArity := by
  rw [checkFields, hopc, Opc.ofCode_code]
  exact if_pos hn

theorem checkFields_of_wrong_kind (hn : f.nops.toNat = o.shape.length) (ht : tagsMatch o f = false) :
    checkFields f = .error .invalidOperandType := by
  rw [checkFields, hopc, Opc.ofCode_code]
  simp [hn, ht]

theorem checkFields_of_assemble {i : Instr} (hn : f.nops.toNat = o.shape.length) (ht : tagsMatch o f = true)
    (hi : assemble o f = some i) : checkFields f = .ok i := by
  rw [checkFields, hopc, Opc.ofCode_code]
  simp [hn, ht, hi]

end

/-- An accepted word has a known opcode, its operand count and kinds, and operands that assemble. -/
theorem checkFields_ok {f : DiwFields} {i : Instr} (h : checkFields f = .ok i) :
    ∃ o : Opc, f.opc = o.code ∧ f.nops.toNat = o.shape.length ∧ tagsMatch o f = true ∧ assemble o f = some i := by
  unfold checkFields at h
  split at h
  · simp at h
  · rename_i o ho
    split at h
    · simp at h
    · rename_i hn
      split at h
      · rename_i ht
        split at h
        · rename_i j hj
          obtain rfl := Except.ok.inj h
          exact ⟨o, Opc.ofCode_eq_some_iff.1 ho, not_not.1 hn, ht, hj⟩
        · simp at h
      · simp at h

/-- The type check compares the tag of each operand that the shape asks for (R155). -/
theorem tagsMatch_iff (o : Opc) (f : DiwFields) :
    tagsMatch o f = true ↔ ∀ p ∈ o.shape.zip [f.t1, f.t2], p.1.tag = p.2 := by
  simp [tagsMatch]

/-- Assembling forgets no field: the instruction's word has the opcode, the values, and the zeros of an absent
operand. -/
theorem eq_encodeFields_of_assemble {o : Opc} {f : DiwFields} {i : Instr} (hopc : f.opc = o.code)
    (hn : f.nops.toNat = o.shape.length) (ht : tagsMatch o f = true) (hi : assemble o f = some i) :
    f = encodeFields i := by
  obtain ⟨opc, nops, t1, v1, t2, v2⟩ := f
  rw [tagsMatch_iff] at ht
  obtain rfl : nops = BitVec.ofNat 2 o.shape.length := by rw [← hn]; simp
  obtain rfl : opc = o.code := hopc
  cases o with
  | setV | addV | subV =>
    simp only [assemble, Option.map_eq_some_iff, Reg.ofValue_eq_some_iff] at hi
    obtain ⟨rd, rfl, rfl⟩ := hi
    obtain ⟨rfl, rfl⟩ : 0 = t1 ∧ 1 = t2 := by simpa [Opc.shape, OperandKind.tag] using ht
    rfl
  | setR | addR | subR =>
    simp only [assemble, Option.bind_eq_some_iff, Option.map_eq_some_iff, Reg.ofValue_eq_some_iff] at hi
    obtain ⟨rd, rfl, rs, rfl, rfl⟩ := hi
    obtain ⟨rfl, rfl⟩ : 0 = t1 ∧ 0 = t2 := by simpa [Opc.shape, OperandKind.tag] using ht
    rfl
  | ifnz | print | push | pop =>
    simp only [assemble, Option.ite_none_right_eq_some, Option.map_eq_some_iff, Reg.ofValue_eq_some_iff] at hi
    obtain ⟨⟨rfl, rfl⟩, r, rfl, rfl⟩ := hi
    obtain rfl : 0 = t1 := by simpa [Opc.shape, OperandKind.tag] using ht
    rfl
  | load | store =>
    simp only [assemble, Option.map_eq_some_iff, Reg.ofValue_eq_some_iff] at hi
    obtain ⟨r, rfl, rfl⟩ := hi
    obtain ⟨rfl, rfl⟩ : 1 = t1 ∧ 0 = t2 := by simpa [Opc.shape, OperandKind.tag] using ht
    rfl

/-- The shape check is the inverse of the encoder, on the fields of a word. -/
theorem checkFields_eq_ok_iff {f : DiwFields} {i : Instr} : checkFields f = .ok i ↔ f = encodeFields i := by
  constructor
  · intro h
    obtain ⟨o, hopc, hn, ht, hi⟩ := checkFields_ok h
    exact eq_encodeFields_of_assemble hopc hn ht hi
  · rintro rfl
    exact checkFields_of_assemble (encodeFields_opc i) (encodeFields_nops i) (tagsMatch_encodeFields i)
      (assemble_encodeFields i)

/-- R123: the shape check is the inverse of the encoder, on words. -/
theorem checkShape_eq_ok_iff {w : BitVec 40} {i : Instr} : checkShape w = .ok i ↔ w = encode i := by
  rw [checkShape, checkFields_eq_ok_iff, encode]
  constructor
  · intro h
    rw [← h, DiwFields.pack_unpack]
  · rintro rfl
    exact DiwFields.unpack_pack _

/-- Settles O2: reading a word is the inverse of writing it (`checkShape_eq_ok_iff`). -/
theorem encodedWordDecodesBack : Obligations.EncodedWordDecodesBack :=
  fun _ => checkShape_eq_ok_iff.2 rfl

/-- Settles O3: reading a word is the inverse of writing it (`checkShape_eq_ok_iff`). -/
theorem decodedWordEncodesBack : Obligations.DecodedWordEncodesBack :=
  fun _ _ h => (checkShape_eq_ok_iff.1 h).symm

/-- Fields whose tags fit their opcode assemble, when each untagged value is a register's and an absent operand is
zero. -/
theorem exists_assemble {o : Opc} {f : DiwFields} (ht : tagsMatch o f = true)
    (h1 : f.t1 = 0 → ∃ r : Reg, f.v1 = r.value) (h2 : f.t2 = 0 → ∃ r : Reg, f.v2 = r.value)
    (habsent : o.shape.length = 1 → f.t2 = 0 ∧ f.v2 = 0) : ∃ i, assemble o f = some i := by
  rw [tagsMatch_iff] at ht
  cases o with
  | setV | addV | subV =>
    obtain ⟨rd, hd⟩ := h1 (ht (.register, f.t1) (by simp [Opc.shape])).symm
    simp [assemble, hd]
  | setR | addR | subR =>
    obtain ⟨rd, hd⟩ := h1 (ht (.register, f.t1) (by simp [Opc.shape])).symm
    obtain ⟨rs, hs⟩ := h2 (ht (.register, f.t2) (by simp [Opc.shape])).symm
    simp [assemble, hd, hs]
  | ifnz | print | push | pop =>
    obtain ⟨r, hr⟩ := h1 (ht (.register, f.t1) (by simp [Opc.shape])).symm
    simp [assemble, hr, habsent rfl]
  | load | store =>
    obtain ⟨r, hr⟩ := h2 (ht (.register, f.t2) (by simp [Opc.shape])).symm
    simp [assemble, hr]

/-- What the shape check asks of fields, in place of the instruction it gives. -/
theorem exists_checkFields_ok {o : Opc} {f : DiwFields} (hopc : f.opc = o.code)
    (hn : f.nops.toNat = o.shape.length) (ht : tagsMatch o f = true)
    (h1 : f.t1 = 0 → ∃ r : Reg, f.v1 = r.value) (h2 : f.t2 = 0 → ∃ r : Reg, f.v2 = r.value)
    (habsent : o.shape.length = 1 → f.t2 = 0 ∧ f.v2 = 0) : ∃ i, checkFields f = .ok i := by
  obtain ⟨i, hi⟩ := exists_assemble ht h1 h2 habsent
  exact ⟨i, checkFields_of_assemble hopc hn ht hi⟩

/-! ### The rows of the table -/

/-- The row of an opcode in R123's table. -/
def Opc.row (o : Opc) : EncodingRow where
  opc := o.code
  nops := BitVec.ofNat 2 o.shape.length
  op1 := if o.shape[0]? = some .numeric then .imm else .reg
  op2 := if o.shape[1]? = some .numeric then .imm else if o.shape.length = 2 then .reg else .absent

theorem encodingRows_eq_map_row : encodingRows = Opc.all.map Opc.row := by decide

theorem wf_iff_row {f : DiwFields} : f.wf = true ↔ ∃ o : Opc, o.row.matches f = true := by
  rw [DiwFields.wf, encodingRows_eq_map_row, List.any_map, List.any_eq_true]
  exact ⟨fun ⟨o, _, h⟩ => ⟨o, h⟩, fun ⟨o, h⟩ => ⟨o, o.mem_all, h⟩⟩

theorem admits_reg_iff {t : BitVec 1} {v : Word} :
    OperandField.reg.admits t v = true ↔ t = 0 ∧ ∃ r : Reg, v = r.value := by
  rw [Reg.exists_value_iff]
  simp [OperandField.admits]

theorem admits_imm_iff {t : BitVec 1} {v : Word} : OperandField.imm.admits t v = true ↔ t = 1 := by
  simp [OperandField.admits]

theorem admits_absent_iff {t : BitVec 1} {v : Word} : OperandField.absent.admits t v = true ↔ t = 0 ∧ v = 0 := by
  simp [OperandField.admits]

theorem row_matches_encodeFields (i : Instr) : i.opc.row.matches (encodeFields i) = true := by
  cases i <;>
    simp [EncodingRow.matches, Instr.opc, Opc.row, Opc.shape, Opc.code, encodeFields, admits_reg_iff,
      admits_imm_iff, admits_absent_iff]

/-- A position that any row admits is untagged only with a register's value: the zero of an absent operand is
register `a`'s (R114, R115). -/
theorem exists_value_of_admits {p : OperandField} {t : BitVec 1} {v : Word} (h : p.admits t v = true) (ht : t = 0) :
    ∃ r : Reg, v = r.value := by
  cases p with
  | reg => exact (admits_reg_iff.1 h).2
  | imm => exact absurd (ht.symm.trans (admits_imm_iff.1 h)) (by decide)
  | absent => exact ⟨.a, (admits_absent_iff.1 h).2⟩

/-- The positions an opcode's row admits carry the tags its shape asks for. -/
theorem tagsMatch_of_admits {o : Opc} {f : DiwFields} (h1 : o.row.op1.admits f.t1 f.v1 = true)
    (h2 : o.row.op2.admits f.t2 f.v2 = true) : tagsMatch o f = true := by
  rw [tagsMatch_iff]
  cases o with
  | setV | addV | subV => simp [Opc.shape, OperandKind.tag, (admits_reg_iff.1 h1).1, admits_imm_iff.1 h2]
  | setR | addR | subR => simp [Opc.shape, OperandKind.tag, (admits_reg_iff.1 h1).1, (admits_reg_iff.1 h2).1]
  | ifnz | print | push | pop => simp [Opc.shape, OperandKind.tag, (admits_reg_iff.1 h1).1]
  | load | store => simp [Opc.shape, OperandKind.tag, admits_imm_iff.1 h1, (admits_reg_iff.1 h2).1]

/-- The row of a one-operand instruction admits no second operand. -/
theorem row_op2_of_one_operand {o : Opc} (h : o.shape.length = 1) : o.row.op2 = .absent := by
  cases o with
  | ifnz | print | push | pop => rfl
  | setV | setR | addV | addR | subV | subR | load | store => simp [Opc.shape] at h

/-- Fields that match an opcode's row are accepted. -/
theorem exists_checkFields_ok_of_row {o : Opc} {f : DiwFields} (h : o.row.matches f = true) :
    ∃ i, checkFields f = .ok i := by
  simp only [EncodingRow.matches, Bool.and_eq_true, decide_eq_true_eq] at h
  obtain ⟨⟨⟨hopc, hn⟩, h1⟩, h2⟩ := h
  refine exists_checkFields_ok hopc (by rw [hn]; cases o <;> rfl) (tagsMatch_of_admits h1 h2)
    (exists_value_of_admits h1) (exists_value_of_admits h2) fun hone => ?_
  rw [row_op2_of_one_operand hone] at h2
  exact admits_absent_iff.1 h2

/-- Settles O4: an accepted word is an instruction's, whose row it matches; a word that matches a row has all that
the shape check asks for. -/
theorem wordPassesExactlyWhenARowMatches : Obligations.WordPassesExactlyWhenARowMatches := by
  intro w
  rw [wf_iff_row]
  constructor
  · rintro ⟨i, hi⟩
    exact ⟨i.opc, checkFields_eq_ok_iff.1 hi ▸ row_matches_encodeFields i⟩
  · rintro ⟨o, ho⟩
    exact exists_checkFields_ok_of_row ho

/-! ### Words that are refused -/

/-- A code below 12 is an opcode's (R113, R117). -/
theorem exists_code_of_lt {k : BitVec 4} (h : k.toNat < 12) : ∃ o : Opc, k = o.code := by
  cases ho : Opc.ofCode k with
  | some o => exact ⟨o, Opc.ofCode_eq_some_iff.1 ho⟩
  | none => exact absurd h (Nat.not_lt.2 (Opc.ofCode_eq_none_iff_reserved.1 ho))

theorem code_toNat_lt (o : Opc) : o.code.toNat < 12 := by cases o <;> decide

/-- R110's operand counts, by code. -/
theorem length_shape_eq (o : Opc) :
    o.shape.length = if 6 ≤ o.code.toNat ∧ o.code.toNat ≤ 9 then 1 else 2 := by cases o <;> decide

/-- R110's operand kinds, by code. -/
theorem tagsMatch_iff_code (o : Opc) (f : DiwFields) :
    tagsMatch o f = true ↔ f.t1 = (if 10 ≤ o.code.toNat then 1 else 0) ∧
      (o.shape.length = 2 →
        f.t2 = if o.code.toNat = 0 ∨ o.code.toNat = 2 ∨ o.code.toNat = 4 then 1 else 0) := by
  rw [tagsMatch_iff]
  cases o <;> simp [Opc.shape, Opc.code, OperandKind.tag, eq_comm (a := f.t1), eq_comm (a := f.t2)]

end Sys2Proof

namespace Sys2Proof.Machine

theorem dispatchWord_of_error {w : BitVec 40} {c : Cause} (s : State)
    (h : checkFields (DiwFields.unpack w) = .error c) : dispatchWord w s = .next (s.faulted c) := by
  rw [dispatchWord, checkShape, h]
  rfl

/-- Settles O12: the counts and kinds written out are the shape's (`length_shape_eq`, `tagsMatch_iff_code`). -/
theorem wrongShapeFaults : Obligations.WrongShapeFaults := by
  intro s w f count kind1 kind2 hlt
  obtain ⟨o, ho⟩ := exists_code_of_lt hlt
  have hcount : o.shape.length = count := by rw [length_shape_eq, ← ho]
  refine ⟨fun hn => ?_, fun hn hkind => ?_⟩
  · exact dispatchWord_of_error s (checkFields_of_wrong_count ho (hcount ▸ hn))
  · have htags : tagsMatch o f = false := by
      rw [← Bool.not_eq_true, tagsMatch_iff_code, hcount, ← ho]
      rintro ⟨h1, h2⟩
      obtain hne | ⟨htwo, hne⟩ := hkind
      · exact hne h1
      · exact hne (h2 htwo)
    exact dispatchWord_of_error s (checkFields_of_wrong_kind ho (hn.trans hcount.symm) htags)

/-- Settles O13: a code from 12 up is reserved, and the decoder writes the code of the opcode it has read. -/
theorem reservedOpcodeIsRefused : Obligations.ReservedOpcodeIsRefused := by
  refine ⟨fun s w h => ?_, fun c line w h => ?_⟩
  · exact dispatchWord_of_error s (checkFields_of_reserved (Opc.ofCode_eq_none_iff_reserved.2 h))
  · obtain ⟨o, ops, p, q, -, -, -, -, hw⟩ := decodeLine_ok h
    rw [hw]
    exact code_toNat_lt o

end Sys2Proof.Machine
end

section
/-! Valid configurations (spec/00_scope.md R16). -/

namespace Sys2Proof

/-- `isPowerOfTwo` is `2^k` for some `k` from 1 up. -/
theorem isPowerOfTwo_iff {n : Nat} : isPowerOfTwo n = true ↔ ∃ k, 1 ≤ k ∧ n = 2 ^ k := by
  simp only [isPowerOfTwo, Bool.and_eq_true, decide_eq_true_eq]
  constructor
  · rintro ⟨h2, hn⟩
    exact ⟨Nat.log2 n, (Nat.le_log2 (by omega)).2 (by omega), hn.symm⟩
  · rintro ⟨k, hk, rfl⟩
    exact ⟨Nat.le_self_pow (by omega) 2, by rw [Nat.log2_two_pow]⟩

theorem Config.wf_iff {c : Config} :
    c.wf = true ↔
      (∃ k, 1 ≤ k ∧ c.memSize = 2 ^ k) ∧ c.stackSize + 2 ≤ c.memSize ∧ 65536 ≤ c.immLiteralLimit := by
  simp only [Config.wf, Bool.and_eq_true, decide_eq_true_eq, isPowerOfTwo_iff, and_assoc]

end Sys2Proof
end

section
/-! Lines (spec/30_encoding.md R101 to R124): how a line splits into tokens, what each token means, and the canonical
line of every instruction. -/

namespace Sys2Proof

/-! ### Tokens (R101) -/

/-- `k` spaces are `k + 1` empty tokens. -/
theorem tokens_replicate_space (k : Nat) : tokens (List.replicate k space) = List.replicate (k + 1) [] := by
  induction k with
  | zero => rfl
  | succ k ih => rw [List.replicate_succ, tokens, if_pos rfl, ih, ← List.replicate_succ]

/-- Settles O57: splitting and joining by single spaces undo each other. -/
theorem tokensSplitAtEverySpace : Obligations.TokensSplitAtEverySpace := by
  refine fun line => ⟨⟨tokens_ne_nil line, space_notMem_of_mem_tokens, ?_⟩, fun ts hne hts hjoin => ?_, ?_⟩
  · exact (joinTokens_eq_intercalate _).symm.trans (joinTokens_tokens line)
  · have hline : joinTokens ts = line := (joinTokens_eq_intercalate ts).trans hjoin
    rw [← hline, tokens_joinTokens hne hts]
  · rintro k rfl
    exact tokens_replicate_space k

/-! ### Immediates (R105) -/

/-- The value of a literal is the library's, on the digits from the last. -/
theorem decimalValue_eq_ofDigits (t : Token) :
    decimalValue t = Nat.ofDigits 10 (t.reverse.map fun b : Byte => b.toNat - 0x30) := by
  induction t using List.reverseRecOn with
  | nil => rfl
  | append_singleton t b ih =>
    rw [List.reverse_append, List.reverse_singleton, List.singleton_append, List.map_cons, Nat.ofDigits_cons, ← ih]
    simp [decimalValue, List.foldl_append, Nat.add_comm]

/-- Settles O9: the three conditions are `parseImm`'s, with the value read as the library's. -/
theorem immediateIsDecimalValueModulo65536 : Obligations.ImmediateIsDecimalValueModulo65536 := by
  intro c t value
  have hcond : (t ≠ [] ∧ t.all isDigit = true ∧ decimalValue t < c.immLiteralLimit) ↔
      (t ≠ [] ∧ (∀ b ∈ t, 0x30 ≤ b.toNat ∧ b.toNat ≤ 0x39) ∧ value < c.immLiteralLimit) := by
    simp only [List.all_eq_true, isDigit_iff, decimalValue_eq_ofDigits, value]
  refine ⟨fun h => ⟨_, if_pos (hcond.2 h), ?_⟩, fun h => if_neg fun h' => h (hcond.1 h')⟩
  rw [BitVec.toNat_ofNat, decimalValue_eq_ofDigits]

/-! ### What the decoder writes for each token -/

/-- The word's fields for one operand position: a register name or an immediate when the token is there, zeros when
it is not (R104, R114, R115). -/
theorem classifyAt_spec {c : Config} {ops : List Token} {j : Nat} {p : BitVec 1 × Word}
    (h : classifyAt c ops j = .ok p) :
    (∀ t, ops[j]? = some t → (∃ r : Reg, t = r.name ∧ p.1 = 0 ∧ p.2 = r.value) ∨
      ((∀ r : Reg, t ≠ r.name) ∧ p.1 = 1 ∧ parseImm c t = .ok p.2)) ∧
    (ops[j]? = none → p.1 = 0 ∧ p.2 = 0) := by
  obtain ⟨r, hr, rfl⟩ | ⟨t, v, ht, hname, hv, rfl⟩ | ⟨hnone, rfl⟩ := classifyAt_cases h
  · exact ⟨fun t ht => .inl ⟨r, Option.some.inj (ht.symm.trans hr), rfl, rfl⟩, by simp [hr]⟩
  · refine ⟨fun t' ht' => .inr ?_, by simp [ht]⟩
    obtain rfl : t = t' := Option.some.inj (ht.symm.trans ht')
    exact ⟨hname, rfl, hv⟩
  · exact ⟨by simp [hnone], fun _ => ⟨rfl, rfl⟩⟩

/-- Settles O6: the tokens after the mnemonic are the operands that `classifyAt_spec` speaks of, one position up. -/
theorem decodedWordHoldsTheTokens : Obligations.DecodedWordHoldsTheTokens := by
  intro c line w h
  obtain ⟨o, ops, p, q, -, htok, hp, hq, hw⟩ := decodeLine_ok h
  obtain ⟨hp1, hp0⟩ := classifyAt_spec hp
  obtain ⟨hq1, hq0⟩ := classifyAt_spec hq
  rw [htok, hw]
  refine ⟨⟨o, rfl, rfl⟩, ?_, hp1, hq1, hp0, hq0⟩
  simp only [BitVec.toNat_ofNat, List.length_cons, Nat.add_sub_cancel]
  omega

/-! ### Canonical lines (R120) -/

/-- The token holds no space and reads as the tag and value `p`. -/
def ReadsAs (c : Config) (t : Token) (p : BitVec 1 × Word) : Prop := space ∉ t ∧ classify c t = .ok p

theorem readsAs_name (c : Config) (r : Reg) : ReadsAs c r.name (0, r.value) :=
  ⟨r.space_not_mem_name, classify_name c r⟩

theorem readsAs_decimal {c : Config} {n : Nat} (h : n < c.immLiteralLimit) :
    ReadsAs c (decimal n) (1, BitVec.ofNat 16 n) :=
  ⟨space_not_mem_decimal n, classify_decimal c h⟩

/-- A 16-bit value is below the literal limit of a valid configuration (R16). -/
theorem readsAs_decimal_toNat {c : Config} (hc : c.wf = true) (v : Word) : ReadsAs c (decimal v.toNat) (1, v) := by
  obtain ⟨-, -, hlimit⟩ := Config.wf_iff.1 hc
  simpa using readsAs_decimal (Nat.lt_of_lt_of_le v.isLt hlimit)

section
variable {c : Config} {i : Instr} {line : Line} {x y : Token} {p q : BitVec 1 × Word}

/-- A line of an instruction's mnemonic and its one operand decodes to its word. -/
theorem decodeLine_one_operand (hline : line = joinTokens [i.opc.name, x])
    (hi : encodeFields i = ⟨i.opc.code, 1, p.1, p.2, 0, 0⟩) (hx : ReadsAs c x p)
    (hlen : lineTooLong c line = false) : decodeLine c line = .ok (encode i) := by
  subst hline
  rw [decodeLine_joinTokens (by simp [i.opc.space_not_mem_name, hx.1]) hlen, encode, hi]
  simp [decodeTokens, classifyAt, hx.2]

/-- A line of an instruction's mnemonic and its two operands decodes to its word. -/
theorem decodeLine_two_operands (hline : line = joinTokens [i.opc.name, x, y])
    (hi : encodeFields i = ⟨i.opc.code, 2, p.1, p.2, q.1, q.2⟩) (hx : ReadsAs c x p) (hy : ReadsAs c y q)
    (hlen : lineTooLong c line = false) : decodeLine c line = .ok (encode i) := by
  subst hline
  rw [decodeLine_joinTokens (by simp [i.opc.space_not_mem_name, hx.1, hy.1]) hlen, encode, hi]
  simp [decodeTokens, classifyAt, hx.2, hy.2]

end

/-- The canonical line decodes to the instruction's word wherever MAX_LINE_LEN admits it. -/
theorem decodeLine_encodeLine {c : Config} (hc : c.wf = true) (i : Instr)
    (hlen : lineTooLong c (encodeLine i) = false) : decodeLine c (encodeLine i) = .ok (encode i) := by
  have hreg := readsAs_name c
  have himm := readsAs_decimal_toNat hc
  cases i with
  | setV rd v | addV rd v | subV rd v => exact decodeLine_two_operands rfl rfl (hreg rd) (himm v) hlen
  | setR rd rs | addR rd rs | subR rd rs => exact decodeLine_two_operands rfl rfl (hreg rd) (hreg rs) hlen
  | ifnz r | print r | push r | pop r => exact decodeLine_one_operand rfl rfl (hreg r) hlen
  | load v r | store v r => exact decodeLine_two_operands rfl rfl (himm v) (hreg r) hlen

/-- A line that decodes to an instruction's word decodes to the instruction. -/
theorem decode_of_decodeLine_encode {c : Config} {line : Line} {i : Instr}
    (h : decodeLine c line = .ok (encode i)) : decode c line = .ok i := by
  rw [decode, h]
  exact checkShape_eq_ok_iff.2 rfl

/-- Settles O5: the canonical line is a mnemonic and operands whose readings are the word's fields. -/
theorem canonicalLineDecodesBack : Obligations.CanonicalLineDecodesBack := by
  intro c i hc hi
  have hline := decodeLine_encodeLine hc i (by simp [lineTooLong_encodeLine, hi])
  exact ⟨hline, decode_of_decodeLine_encode hline⟩

/-- Settles O10: each of the five lines reads its literal mod 65536, whatever its length. -/
theorem literalsAreTruncated : Obligations.LiteralsAreTruncated := by
  intro c rd n hn hmax
  have hlen (line : Line) : lineTooLong c line = false := lineTooLong_eq_false_iff.2 (by simp [hmax])
  have hreg := readsAs_name c rd
  have himm := readsAs_decimal hn
  refine ⟨?_, ?_, ?_, ?_, ?_⟩ <;> apply decode_of_decodeLine_encode
  · exact decodeLine_two_operands rfl rfl hreg himm (hlen _)
  · exact decodeLine_two_operands rfl rfl hreg himm (hlen _)
  · exact decodeLine_two_operands rfl rfl hreg himm (hlen _)
  · exact decodeLine_two_operands rfl rfl himm hreg (hlen _)
  · exact decodeLine_two_operands rfl rfl himm hreg (hlen _)

/-- Settles O1: the decoder and the shape check run on seven lines. -/
theorem writtenLinesDecode : Obligations.WrittenLinesDecode := by
  unfold Obligations.WrittenLinesDecode
  decide

/-! ### Table words -/

/-- The line of an instruction's fields is its canonical line. -/
theorem lineOfFields_encodeFields (i : Instr) : lineOfFields (encodeFields i) = some (encodeLine i) := by
  rw [lineOfFields, encodeFields_opc, Opc.ofCode_code]
  cases i <;> simp [encodeFields, encodeLine, Instr.opc, operandToken, OperandKind.tag]

/-- The line of an instruction's table word is its canonical line. -/
theorem lineOfTableWord_encode (i : Instr) : lineOfTableWord 40 (encode i).toNat = some (encodeLine i) := by
  have hlt : (encode i).toNat < 2 ^ 40 := (encode i).isLt
  rw [lineOfTableWord, Nat.mod_eq_of_lt hlt, if_pos hlt, BitVec.ofNat_toNat, BitVec.setWidth_eq, unpack_encode,
    lineOfFields_encodeFields]

/-- The default configuration has no line limit, so it reads every instruction's table word. -/
theorem decodeTableWord_encode (i : Instr) : decodeTableWord 40 (encode i).toNat = some i := by
  rw [decodeTableWord, lineOfTableWord_encode]
  simp [canonicalLineDecodesBack .default i (by decide) rfl]

end Sys2Proof

namespace Sys2Proof.Machine

/-- The placed line stands at its index, whatever the program's length. -/
theorem getElem?_placeLine (prog : List Line) (n : Nat) (line : Line) :
    (placeLine prog n line)[n]? = some line := by
  have hlen : (prog.take n ++ List.replicate (n - prog.length) []).length = n := by
    simp only [List.length_append, List.length_take, List.length_replicate]
    omega
  rw [placeLine, List.getElem?_append_right hlen.le, hlen, Nat.sub_self]
  rfl

theorem encodeLine_ne_nil (i : Instr) : encodeLine i ≠ [] := by
  rw [ne_eq, ← List.length_eq_zero_iff, length_encodeLine]
  cases i <;> simp [Instr.lineLength]

/-- R124: a line longer than MAX_LINE_LEN does not decode. -/
theorem decode_of_too_long {c : Config} {line : Line} (h : lineTooLong c line = true) :
    decode c line = .error .refused :=
  decode_of_decodeLine_error (if_pos h)

/-- Settles O39: the placed line is the canonical line, which decodes back unless MAX_LINE_LEN shuts it out. -/
theorem placedTableWordIsRunNext : Obligations.PlacedTableWordIsRunNext := by
  intro s i hs placed
  have hline : placed.prog[placed.pc]? = some (encodeLine i) := by
    simp [placed, lineOfTableWord_encode, getElem?_placeLine]
  refine ⟨decodeTableWord_encode i, hline, fun hi => ?_, fun hi => ?_⟩
  · exact step_of_fetches hs ⟨_, hline, encodeLine_ne_nil i, (canonicalLineDecodesBack s.cfg i hs.1 hi).2⟩
  · exact step_of_decode_error hs hline (encodeLine_ne_nil i)
      (decode_of_too_long (by simp [lineTooLong_encodeLine, hi, placed]))

/-! ### Lines that fault -/

/-- Settles O8: the length is checked first, and an overlong line is not empty. -/
theorem overlongLineIsRefused : Obligations.OverlongLineIsRefused := by
  refine ⟨rfl, fun s line m hs hl hm hlong => ?_⟩
  have hne : line ≠ [] := by
    rintro rfl
    exact absurd hlong (Nat.not_lt_zero m)
  exact step_of_decode_error hs hl hne (decode_of_too_long (by simp [lineTooLong, hm, hlong]))

/-- Settles O11: of the outcomes of `decodeLine` only MalformedImmediate is left, since a decoded position holds a
register name, an immediate, or no token. -/
theorem malformedOperandFaults : Obligations.MalformedOperandFaults := by
  intro s line o j t hs hl hlen ho hj ht hname himm
  have hne : line ≠ [] := by
    rintro rfl
    cases o <;> simp [tokens, Opc.name, ascii] at ho
  have hlen := lineTooLong_eq_false_iff.2 hlen
  have hbad {p : BitVec 1 × Word} {ops : List Token} {k : Nat} (hk : ops[k]? = some t)
      (hp : classifyAt s.cfg ops k = .ok p) : False := by
    obtain ⟨r, hr, -⟩ | ⟨-, -, hv⟩ := (classifyAt_spec hp).1 t hk
    · exact hname r hr
    · exact himm _ hv
  refine step_of_decode_error hs hl hne (decode_of_decodeLine_error ?_)
  cases h : decodeLine s.cfg line with
  | ok w =>
    obtain ⟨o', ops, p, q, -, htok, hp, hq, -⟩ := decodeLine_ok h
    rw [htok] at ht
    obtain rfl | rfl := hj
    · exact (hbad ht hp).elim
    · exact (hbad ht hq).elim
  | error e =>
    obtain ⟨htoo, -⟩ | ⟨-, hunknown, -⟩ | ⟨-, -, rfl⟩ := decodeLine_error h
    · simp [hlen] at htoo
    · exact absurd ho (hunknown o)
    · rfl

theorem step_of_empty_line {s : State} (hs : Ready s) (h : s.prog[s.pc]? = some []) : step s = .next s.advance := by
  rw [step_of_ready hs, runningStep, fetchLine, h]
  rfl

/-- Settles O17: a line of spaces has an empty first token, which is no mnemonic. -/
theorem onlyZeroLengthLinesAreSkipped : Obligations.OnlyZeroLengthLinesAreSkipped := by
  refine ⟨fun s => step_of_empty_line, fun s k hs hl hlen => ?_⟩
  refine unknownMnemonicFaults s _ hs hl (by simp) (by simpa using hlen) fun o ho => ?_
  have hempty : (tokens (List.replicate (k + 1) space))[0]? = some [] := by
    rw [tokens_replicate_space, List.replicate_succ]
    rfl
  have hname : o.name = [] := Option.some.inj (ho.symm.trans hempty)
  cases o <;> simp [Opc.name, ascii] at hname

end Sys2Proof.Machine
end

section
/-! What a step keeps, writes and raises (spec/10_state.md R31, R33, R40 to R45; spec/40_execution_engine.md R151 to
R164; spec/60_exceptions.md R302): one fact per instruction, then the same of the step. -/

namespace Sys2Proof.Machine

/-! ### Program store and configuration (R42, R45) -/

theorem exec_keeps_prog_cfg {i : Instr} {s t : State} (h : exec i s = .next t) :
    t.prog = s.prog ∧ t.cfg = s.cfg := by
  obtain ⟨c, -, rfl⟩ | ⟨rs, -, -, -, rfl⟩ | ⟨rs, -, -, rfl⟩ | ⟨rs, -, rfl⟩ | ⟨rd, v, -, -, rfl⟩ | ⟨rs, -, -, rfl⟩ |
    ⟨rd, -, -, rfl⟩ | ⟨addr, rs, -, -, -, rfl⟩ := exec_cases h
  all_goals exact ⟨rfl, rfl⟩

/-- Settles O25: the three kinds of step that run no instruction write RUN, CAUSE or PC only. -/
theorem stepKeepsProgramAndConfiguration : Obligations.StepKeepsProgramAndConfiguration := by
  intro s t h
  obtain ⟨-, rfl⟩ | ⟨-, rfl⟩ | ⟨-, c, -, -, -, rfl⟩ | ⟨i, -, hi⟩ := step_cases h
  · exact ⟨rfl, rfl⟩
  · exact ⟨rfl, rfl⟩
  · exact ⟨rfl, rfl⟩
  · exact exec_keeps_prog_cfg hi

/-! ### When a step is taken (R157, R159) -/

/-- Settles O14: fetch, decode and shape check are `Fetches`. -/
theorem stepRunsTheDecodedInstruction : Obligations.StepRunsTheDecodedInstruction :=
  fun _ _ => step_of_fetches

/-- Settles O18: of the three run states only RUNNING has a step. -/
theorem haltedBlockTakesNoStep : Obligations.HaltedBlockTakesNoStep := by
  intro s hc hrun
  rw [step, if_pos hc]
  cases hr : s.run with
  | running => exact absurd hr hrun
  | haltedOk | haltedFault => rfl

/-- A ready block takes a step: no instruction stops the machine. -/
theorem step_answers {s : State} (hs : Ready s) : ∃ t, step s = .next t := by
  rw [step_of_ready hs, runningStep]
  cases fetchLine s with
  | none => exact ⟨_, rfl⟩
  | some line =>
    simp only [runLine_eq]
    split
    · exact ⟨_, rfl⟩
    · split
      · exact ⟨_, rfl⟩
      · exact exec_answers _ s

/-! ### Runs end (R161, R350) -/

theorem runToHalt_of_step {s t : State} (h : step s = .next t) (fuel : Nat) :
    runToHalt (fuel + 1) s = runToHalt fuel t := by
  rw [runToHalt, if_pos (ready_of_step h).2, h]

theorem runToHalt_of_halted {s : State} (h : s.run ≠ .running) (fuel : Nat) : runToHalt fuel s = .next s := by
  cases fuel with
  | zero => rfl
  | succ fuel => rw [runToHalt, if_neg h]

/-- A step from inside the program that leaves the block running leaves fewer lines ahead; at end of input it halts. -/
theorem step_halts_or_advances {s t : State} (h : step s = .next t) :
    t.run ≠ .running ∨ (Ready t ∧ t.prog.length = s.prog.length ∧ s.pc < s.prog.length ∧ s.pc < t.pc) := by
  obtain ⟨hprog, hcfg⟩ := stepKeepsProgramAndConfiguration s t h
  obtain ⟨hrun, hpc⟩ | ⟨hrun, -⟩ := stepMovesPcByOneOrTakenSkip s t h
  · right
    refine ⟨⟨hcfg ▸ (ready_of_step h).1, hrun⟩, by rw [hprog], Nat.lt_of_not_le fun hend => ?_, ?_⟩
    · rw [step_of_end_of_input (ready_of_step h) hend] at h
      injection h with h
      simp [← h] at hrun
    · obtain ⟨hpc, -⟩ | ⟨hpc, -⟩ := hpc <;> omega
  · exact .inl hrun

/-- With fuel for one step per line ahead and one more, a ready block halts. -/
theorem runToHalt_of_lines_ahead (n : Nat) {s : State} (hs : Ready s) (hn : s.prog.length - s.pc ≤ n) :
    ∃ t, runToHalt (n + 1) s = .next t ∧ t.run ≠ .running := by
  induction n generalizing s with
  | zero =>
    refine ⟨s.haltOk, ?_, by simp⟩
    rw [runToHalt_of_step (step_of_end_of_input hs (by omega)), runToHalt]
  | succ n ih =>
    obtain ⟨t, ht⟩ := step_answers hs
    rw [runToHalt_of_step ht]
    obtain hhalt | ⟨hready, hlen, hin, hpc⟩ := step_halts_or_advances ht
    · exact ⟨t, runToHalt_of_halted hhalt _, hhalt⟩
    · exact ih hready (by omega)

/-- Settles O21: PC only grows while the block runs, so the lines ahead bound the steps left. -/
theorem runHaltsWithinProgramLength : Obligations.RunHaltsWithinProgramLength := by
  refine ⟨fun s hs => runToHalt_of_lines_ahead _ hs (Nat.le_refl _), fun c prog hc => ?_⟩
  obtain ⟨t, ht⟩ := runToHalt_of_lines_ahead prog.length (s := { State.reset with prog := prog, cfg := c }) ⟨hc, rfl⟩
    (Nat.sub_le _ _)
  exact ⟨_, t, if_pos hc, ht⟩

/-! ### Configurations (R16) -/

/-- Settles O19: `Config.wf` is R16's three constraints, and both boot and step look at it first. -/
theorem onlyValidConfigurationsRun : Obligations.OnlyValidConfigurationsRun := by
  intro c prog
  rw [← Config.wf_iff]
  refine ⟨fun h => if_pos h, fun h => ⟨if_neg h, ?_⟩⟩
  rintro s rfl
  exact if_neg h

/-! ### Causes (R302) -/

/-- A classified position is tagged NUMERIC or holds a register's value; the zero of an absent token is register
`a`'s. -/
theorem exists_value_of_classifyAt {c : Config} {ops : List Token} {j : Nat} {p : BitVec 1 × Word}
    (h : classifyAt c ops j = .ok p) (hp : p.1 = 0) : ∃ r : Reg, p.2 = r.value := by
  obtain ⟨r, -, rfl⟩ | ⟨t, v, -, -, -, rfl⟩ | ⟨-, rfl⟩ := classifyAt_cases h
  · exact ⟨r, rfl⟩
  · exact absurd hp (by simp)
  · exact ⟨.a, rfl⟩

/-- A decoded word fails the shape check only by its operand count or an operand kind: its opcode is known, and its
values are those of its tokens. -/
theorem checkShape_error_of_decodeLine {c : Config} {line : Line} {w : BitVec 40} {e : Cause}
    (h : decodeLine c line = .ok w) (he : checkShape w = .error e) :
    e = .invalidOperandArity ∨ e = .invalidOperandType := by
  obtain ⟨o, ops, p, q, -, -, hp, hq, hw⟩ := decodeLine_ok h
  rw [checkShape, hw] at he
  by_cases hn : (BitVec.ofNat 2 (min ops.length 3)).toNat = o.shape.length
  · cases ht : tagsMatch o ⟨o.code, BitVec.ofNat 2 (min ops.length 3), p.1, p.2, q.1, q.2⟩ with
    | false =>
      rw [checkFields_of_wrong_kind rfl hn ht] at he
      exact .inr (Except.error.inj he).symm
    | true =>
      have habsent : o.shape.length = 1 → q.1 = 0 ∧ q.2 = 0 := fun hone =>
        (classifyAt_spec hq).2 (List.getElem?_eq_none (by rw [hone, BitVec.toNat_ofNat] at hn; omega))
      obtain ⟨i, hi⟩ := exists_checkFields_ok rfl hn ht (exists_value_of_classifyAt hp)
        (exists_value_of_classifyAt hq) habsent
      simp [hi] at he
  · rw [checkFields_of_wrong_count rfl hn] at he
    exact .inl (Except.error.inj he).symm

/-- Why a line holds no instruction (R109, R154, R155). -/
theorem decode_error {c : Config} {line : Line} {e : Cause} (h : decode c line = .error e) :
    e = .unknownOpcode ∨ e = .malformedImmediate ∨ e = .invalidOperandArity ∨ e = .invalidOperandType ∨
      (e = .refused ∧ ∃ m, c.maxLineLen = some m ∧ m < line.length) := by
  unfold decode at h
  split at h
  · rename_i e' hline
    obtain rfl : e' = e := Except.error.inj h
    obtain ⟨htoo, rfl⟩ | ⟨-, -, rfl⟩ | ⟨-, -, rfl⟩ := decodeLine_error hline
    · have hnot : ¬ ∀ m, c.maxLineLen = some m → line.length ≤ m := by
        rw [← lineTooLong_eq_false_iff, htoo]
        simp
      push Not at hnot
      exact .inr (.inr (.inr (.inr ⟨rfl, hnot⟩)))
    · exact .inl rfl
    · exact .inr (.inl rfl)
  · rename_i w hw
    obtain rfl | rfl := checkShape_error_of_decodeLine hw h
    · exact .inr (.inr (.inl rfl))
    · exact .inr (.inr (.inr (.inl rfl)))

/-- Settles O23: a faulting step takes a fault of its line's decoding, whose causes `decode_error` lists, or of its
instruction. -/
theorem faultCausesByInstruction : Obligations.FaultCausesByInstruction := by
  intro s t h ht
  obtain ⟨line, c, hl, hne, rfl, hd | ⟨i, hd, hc⟩⟩ := step_to_haltedFault h ht
  · exact ⟨line, hl, hne, .inl ⟨hd, decode_error hd⟩⟩
  · exact ⟨line, hl, hne, .inr ⟨i, hd, hc⟩⟩

/-- An instruction raises Refused only by a skip onto an empty line (R243). -/
theorem exec_refused {i : Instr} {s t : State} (h : exec i s = .next t) (hs : s.cause ≠ .refused)
    (ht : t.cause = .refused) : s.prog[s.pc + 1]? = some [] := by
  obtain ⟨c, hc, rfl⟩ | ⟨rs, -, -, -, rfl⟩ | ⟨rs, -, -, rfl⟩ | ⟨rs, -, rfl⟩ | ⟨rd, v, -, -, rfl⟩ | ⟨rs, -, -, rfl⟩ |
    ⟨rd, -, -, rfl⟩ | ⟨addr, rs, -, -, -, rfl⟩ := exec_cases h
  · obtain rfl : c = .refused := ht
    cases i with
    | ifnz rs =>
      by_contra hne
      by_cases hz : s.reg rs = 0
      · rw [exec_ifnz_of_zero hz hne] at h
        injection h with h
        exact hs (by simpa using congrArg State.cause h)
      · rw [exec, execIfnz, if_neg hz] at h
        injection h with h
        exact hs (by simpa using congrArg State.cause h)
    | _ => simp [raisable] at hc
  all_goals exact absurd ht hs

theorem programOfFile_ne_nil {bytes : List Byte} {line : Line} (h : line ∈ programOfFile bytes) : line ≠ [] := by
  simpa using (List.mem_filter.1 h).2

/-- Settles O24: Refused comes from an overlong line or a skip onto an empty one, and the host duty rules out
both. -/
theorem conformingProgramsAreNeverRefused : Obligations.ConformingProgramsAreNeverRefused := by
  refine ⟨fun s t hmax hlines hs h ht => ?_, fun bytes line => programOfFile_ne_nil⟩
  obtain ⟨-, rfl⟩ | ⟨-, rfl⟩ | ⟨line, c, -, -, hd, rfl⟩ | ⟨i, -, hi⟩ := step_cases h
  · exact hs ht
  · exact hs ht
  · obtain rfl : c = .refused := ht
    simpa [hmax] using decode_error hd
  · exact hlines [] (List.mem_of_getElem? (exec_refused hi hs ht)) rfl

/-! ### Who writes what (R31, R33, R40, R41) -/

/-- Registers, SP, memory and `OUT` keep their values. -/
structure KeepsData (s t : State) : Prop where
  regs : t.regs = s.regs
  sp : t.sp = s.sp
  mem : t.mem = s.mem
  out : t.out = s.out

/-- Only a step that runs an instruction changes more than PC, RUN and CAUSE. -/
theorem step_keepsData_or_exec {s t : State} (h : step s = .next t) :
    KeepsData s t ∨ ∃ i, Fetches s i ∧ exec i s = .next t := by
  obtain ⟨-, rfl⟩ | ⟨-, rfl⟩ | ⟨-, c, -, -, -, rfl⟩ | hexec := step_cases h
  · exact .inl ⟨rfl, rfl, rfl, rfl⟩
  · exact .inl ⟨rfl, rfl, rfl, rfl⟩
  · exact .inl ⟨rfl, rfl, rfl, rfl⟩
  · exact .inr hexec

theorem KeepsData.reg {s t : State} (h : KeepsData s t) (r : Reg) : t.reg r = s.reg r := by
  rw [State.reg_eq_read, State.reg_eq_read, h.regs]

theorem dest_of_exec_reg_ne {i : Instr} {s t : State} {r : Reg} (h : exec i s = .next t) (hr : t.reg r ≠ s.reg r) :
    dest i = some r := by
  obtain ⟨c, -, rfl⟩ | ⟨rs, -, -, -, rfl⟩ | ⟨rs, -, -, rfl⟩ | ⟨rs, -, rfl⟩ | ⟨rd, v, hd, -, rfl⟩ | ⟨rs, -, -, rfl⟩ |
    ⟨rd, rfl, -, rfl⟩ | ⟨addr, rs, -, -, -, rfl⟩ := exec_cases h
  · exact absurd rfl hr
  · exact absurd rfl hr
  · exact absurd rfl hr
  · exact absurd rfl hr
  · rw [hd, State.eq_of_setReg_reg_ne hr]
  · exact absurd rfl hr
  · rw [dest, State.eq_of_setReg_reg_ne hr]
  · exact absurd rfl hr

/-- Settles O29: a changed register is its instruction's destination. -/
theorem registerChangesOnlyByItsWriter : Obligations.RegisterChangesOnlyByItsWriter := by
  intro s t r h hr
  obtain hkeeps | ⟨i, hf, hi⟩ := step_keepsData_or_exec h
  · exact absurd (hkeeps.reg r) hr
  · exact ⟨i, hf, dest_of_exec_reg_ne hi hr⟩

/-- An instruction leaves memory as it is, or writes one word: a PUSH in the stack region, a STORE in the heap. -/
theorem exec_mem_cases {i : Instr} {s t : State} (h : exec i s = .next t) :
    t.mem = s.mem ∨
    (∃ rs, i = .push rs ∧ s.sp + 2 ≤ s.cfg.stackSize ∧ t.mem = Memory.writeWord s.mem s.sp (s.reg rs)) ∨
    (∃ addr rs, i = .store addr rs ∧ s.cfg.stackSize ≤ addr.toNat ∧ addr.toNat + 2 ≤ s.cfg.memSize ∧
      t.mem = Memory.writeWord s.mem addr.toNat (s.reg rs)) := by
  obtain ⟨c, -, rfl⟩ | ⟨rs, -, -, -, rfl⟩ | ⟨rs, -, -, rfl⟩ | ⟨rs, -, rfl⟩ | ⟨rd, v, -, -, rfl⟩ |
    ⟨rs, hi, hroom, rfl⟩ | ⟨rd, -, -, rfl⟩ | ⟨addr, rs, hi, h0, h1, rfl⟩ := exec_cases h
  · exact .inl rfl
  · exact .inl rfl
  · exact .inl rfl
  · exact .inl rfl
  · exact .inl rfl
  · exact .inr (.inl ⟨rs, hi, hroom, rfl⟩)
  · exact .inl rfl
  · exact .inr (.inr ⟨addr, rs, hi, h0, h1, rfl⟩)

/-- A byte that a word write changed is one of the word's two. -/
theorem Memory.eq_of_readByte_writeWord_ne {m : Memory} {a b : Nat} {v : Word}
    (h : Memory.readByte (Memory.writeWord m a v) b ≠ Memory.readByte m b) : b = a ∨ b = a + 1 := by
  by_contra hb
  push Not at hb
  exact h (Memory.readByte_writeWord_outside m v hb.1 hb.2)

/-- Settles O30: a word write changes only the word's two bytes. -/
theorem memoryChangesOnlyByPushAndStore : Obligations.MemoryChangesOnlyByPushAndStore := by
  intro s t a h ha
  obtain hkeeps | ⟨i, hf, hi⟩ := step_keepsData_or_exec h
  · exact absurd (by rw [hkeeps.mem]) ha
  · obtain hmem | ⟨rs, rfl, -, hmem⟩ | ⟨addr, rs, rfl, -, -, hmem⟩ := exec_mem_cases hi
    · exact absurd (by rw [hmem]) ha
    · exact .inl ⟨rs, hf, Memory.eq_of_readByte_writeWord_ne (hmem ▸ ha)⟩
    · exact .inr ⟨addr, rs, hf, Memory.eq_of_readByte_writeWord_ne (hmem ▸ ha)⟩

theorem exec_out_cases {i : Instr} {s t : State} (h : exec i s = .next t) :
    t.out = s.out ∨ ∃ rs, i = .print rs ∧ t.out = s.out ++ [s.reg rs] := by
  obtain ⟨c, -, rfl⟩ | ⟨rs, -, -, -, rfl⟩ | ⟨rs, -, -, rfl⟩ | ⟨rs, hi, rfl⟩ | ⟨rd, v, -, -, rfl⟩ | ⟨rs, -, -, rfl⟩ |
    ⟨rd, -, -, rfl⟩ | ⟨addr, rs, -, -, -, rfl⟩ := exec_cases h
  · exact .inl rfl
  · exact .inl rfl
  · exact .inl rfl
  · exact .inr ⟨rs, hi, rfl⟩
  · exact .inl rfl
  · exact .inl rfl
  · exact .inl rfl
  · exact .inl rfl

/-- Settles O31: of the instructions only PRINT emits. -/
theorem outputChangesOnlyByPrint : Obligations.OutputChangesOnlyByPrint := by
  intro s t h
  obtain hkeeps | ⟨i, hf, hi⟩ := step_keepsData_or_exec h
  · exact .inl hkeeps.out
  · obtain hout | ⟨rs, rfl, hout⟩ := exec_out_cases hi
    · exact .inl hout
    · exact .inr ⟨rs, hf, hout⟩

theorem exec_sp_cases {i : Instr} {s t : State} (h : exec i s = .next t) :
    t.sp = s.sp ∨ (∃ rs, i = .push rs ∧ s.sp + 2 ≤ s.cfg.stackSize ∧ t.sp = s.sp + 2) ∨
      (∃ rd, i = .pop rd ∧ t.sp + 2 = s.sp) := by
  obtain ⟨c, -, rfl⟩ | ⟨rs, -, -, -, rfl⟩ | ⟨rs, -, -, rfl⟩ | ⟨rs, -, rfl⟩ | ⟨rd, v, -, -, rfl⟩ | ⟨rs, hi, hroom, rfl⟩ |
    ⟨rd, hi, hword, rfl⟩ | ⟨addr, rs, -, -, -, rfl⟩ := exec_cases h
  · exact .inl rfl
  · exact .inl rfl
  · exact .inl rfl
  · exact .inl rfl
  · exact .inl rfl
  · exact .inr (.inl ⟨rs, hi, hroom, rfl⟩)
  · exact .inr (.inr ⟨rd, hi, Nat.sub_add_cancel hword⟩)
  · exact .inl rfl

/-- Settles O32: a PUSH that completes adds 2, a POP that completes had at least 2 to subtract. -/
theorem stackPointerChangesOnlyByPushAndPop : Obligations.StackPointerChangesOnlyByPushAndPop := by
  intro s t h
  obtain hkeeps | ⟨i, hf, hi⟩ := step_keepsData_or_exec h
  · exact .inl hkeeps.sp
  · obtain hsp | ⟨rs, rfl, -, hsp⟩ | ⟨rd, rfl, hsp⟩ := exec_sp_cases hi
    · exact .inl hsp
    · exact .inr (.inl ⟨rs, hf, hsp⟩)
    · exact .inr (.inr ⟨rd, hf, hsp⟩)

end Sys2Proof.Machine
end

section
/-! What an instruction depends on (spec/20_memory.md R69 to R77; spec/30_encoding.md R122; spec/42_skip_print.md
R241): of memory the word it loads, of the program whether the next line is empty. -/

namespace Sys2Proof.Machine

/-! ### IFNZ's other two outcomes (R243, R244) -/

theorem exec_ifnz_of_empty_line {rs : Reg} {s : State} (hz : s.reg rs = 0) (he : s.prog[s.pc + 1]? = some []) :
    exec (.ifnz rs) s = .next (s.faulted .refused) := by
  have hnext : nextLineEmpty s = true := decide_eq_true he
  rw [exec, execIfnz, if_pos hz, if_pos hnext]
  rfl

theorem exec_ifnz_of_nonzero {rs : Reg} {s : State} (hnz : s.reg rs ≠ 0) :
    exec (.ifnz rs) s = .next s.advance := by
  rw [exec, execIfnz, if_neg hnz]

/-- Settles O46: IFNZ's three outcomes, one equation each. -/
theorem ifnzSkipsOnZero : Obligations.IfnzSkipsOnZero :=
  fun _ _ => ⟨encodedAs_iff.2 ⟨rfl, rfl, rfl, rfl, rfl⟩, exec_ifnz_of_zero, exec_ifnz_of_empty_line,
    exec_ifnz_of_nonzero⟩

/-! ### Another memory and another program -/

/-- What an instruction reads of memory and of the program is the same with `m` and `q` in their place. -/
def ReadsAlike (i : Instr) (s : State) (m : Memory) (q : List Line) : Prop :=
  match i with
  | .pop _ => 2 ≤ s.sp → Memory.readWord m (s.sp - 2) = Memory.readWord s.mem (s.sp - 2)
  | .load addr _ => s.cfg.stackSize ≤ addr.toNat → Memory.readWord m addr.toNat = Memory.readWord s.mem addr.toNat
  | .ifnz _ => q[s.pc + 1]? = some [] ↔ s.prog[s.pc + 1]? = some []
  | _ => True

/-- What an instruction makes of a memory `m`: a completed PUSH or STORE writes its word, every other leaves it. -/
def writtenBy (i : Instr) (s : State) (m : Memory) : Memory :=
  match i with
  | .push rs => if s.sp + 2 ≤ s.cfg.stackSize then Memory.writeWord m s.sp (s.reg rs) else m
  | .store addr rs =>
    if s.cfg.stackSize ≤ addr.toNat ∧ addr.toNat + 2 ≤ s.cfg.memSize then
      Memory.writeWord m addr.toNat (s.reg rs)
    else m
  | _ => m

/-- With another memory and another program, an instruction that reads the same of them does the same. -/
theorem exec_of_readsAlike {i : Instr} {s t : State} {m : Memory} {q : List Line} (h : exec i s = .next t)
    (hr : ReadsAlike i s m q) :
    exec i { s with mem := m, prog := q } = .next { t with mem := writtenBy i s m, prog := q } := by
  cases i with
  | setV rd v | setR rd v | addV rd v | addR rd v | subV rd v | subR rd v | print rs =>
    obtain rfl := Host.Outcome.next.inj h
    rfl
  | ifnz rs =>
    by_cases hz : s.reg rs = 0
    · by_cases he : s.prog[s.pc + 1]? = some []
      · obtain rfl := Host.Outcome.next.inj ((exec_ifnz_of_empty_line hz he).symm.trans h)
        exact exec_ifnz_of_empty_line (s := { s with mem := m, prog := q }) hz (hr.2 he)
      · obtain rfl := Host.Outcome.next.inj ((exec_ifnz_of_zero hz he).symm.trans h)
        exact exec_ifnz_of_zero (s := { s with mem := m, prog := q }) hz fun he' => he (hr.1 he')
    · obtain rfl := Host.Outcome.next.inj ((exec_ifnz_of_nonzero hz).symm.trans h)
      exact exec_ifnz_of_nonzero (s := { s with mem := m, prog := q }) hz
  | push rs =>
    by_cases hroom : s.sp + 2 ≤ s.cfg.stackSize
    · obtain rfl := Host.Outcome.next.inj ((execPush_of_room rs hroom).symm.trans h)
      rw [writtenBy, if_pos hroom]
      exact execPush_of_room (s := { s with mem := m, prog := q }) rs hroom
    · have hfull := Nat.lt_of_not_le hroom
      obtain rfl := Host.Outcome.next.inj ((execPush_of_full rs hfull).symm.trans h)
      rw [writtenBy, if_neg hroom]
      exact execPush_of_full (s := { s with mem := m, prog := q }) rs hfull
  | pop rd =>
    by_cases hword : 2 ≤ s.sp
    · obtain rfl := Host.Outcome.next.inj ((execPop_of_nonempty rd hword).symm.trans h)
      rw [← hr hword]
      exact execPop_of_nonempty (s := { s with mem := m, prog := q }) rd hword
    · have hempty := Nat.lt_of_not_le hword
      obtain rfl := Host.Outcome.next.inj ((execPop_of_empty rd hempty).symm.trans h)
      exact execPop_of_empty (s := { s with mem := m, prog := q }) rd hempty
  | load addr rd =>
    obtain hs | ⟨h0, h1⟩ | ⟨h0, h1⟩ := heap_address_cases s.cfg addr
    · obtain rfl := Host.Outcome.next.inj ((execLoad_of_stack rd hs).symm.trans h)
      exact execLoad_of_stack (s := { s with mem := m, prog := q }) rd hs
    · obtain rfl := Host.Outcome.next.inj ((execLoad_of_heap rd h0 h1).symm.trans h)
      rw [← hr h0]
      exact execLoad_of_heap (s := { s with mem := m, prog := q }) rd h0 h1
    · obtain rfl := Host.Outcome.next.inj ((execLoad_of_past_end rd h0 h1).symm.trans h)
      exact execLoad_of_past_end (s := { s with mem := m, prog := q }) rd h0 h1
  | store addr rs =>
    obtain hs | ⟨h0, h1⟩ | ⟨h0, h1⟩ := heap_address_cases s.cfg addr
    · obtain rfl := Host.Outcome.next.inj ((execStore_of_stack rs hs).symm.trans h)
      rw [writtenBy, if_neg (by omega)]
      exact execStore_of_stack (s := { s with mem := m, prog := q }) rs hs
    · obtain rfl := Host.Outcome.next.inj ((execStore_of_heap rs h0 h1).symm.trans h)
      rw [writtenBy, if_pos ⟨h0, h1⟩]
      exact execStore_of_heap (s := { s with mem := m, prog := q }) rs h0 h1
    · obtain rfl := Host.Outcome.next.inj ((execStore_of_past_end rs h0 h1).symm.trans h)
      rw [writtenBy, if_neg (by omega)]
      exact execStore_of_past_end (s := { s with mem := m, prog := q }) rs h0 h1

/-- `exec_of_readsAlike` with the program kept. -/
theorem exec_of_readsAlike_mem {i : Instr} {s t : State} {m : Memory} (h : exec i s = .next t)
    (hr : ReadsAlike i s m s.prog) : exec i { s with mem := m } = .next { t with mem := writtenBy i s m } := by
  obtain ⟨hprog, -⟩ := exec_keeps_prog_cfg h
  have hexec := exec_of_readsAlike h hr
  rwa [← hprog] at hexec ⊢

theorem readsAlike_self (i : Instr) (s : State) : ReadsAlike i s s.mem s.prog := by
  cases i <;> simp [ReadsAlike]

/-- `writtenBy` is what an instruction makes of its own memory. -/
theorem exec_mem_eq_writtenBy {i : Instr} {s t : State} (h : exec i s = .next t) : t.mem = writtenBy i s s.mem :=
  congrArg State.mem (Host.Outcome.next.inj (h.symm.trans (exec_of_readsAlike h (readsAlike_self i s))))

/-- A word write keeps two memories alike where they were, and makes them alike at its own two bytes. -/
theorem Memory.readByte_writeWord_congr {m n : Memory} {a b : Nat} (v : Word)
    (h : Memory.readByte m b = Memory.readByte n b ∨ b = a ∨ b = a + 1) :
    Memory.readByte (Memory.writeWord m a v) b = Memory.readByte (Memory.writeWord n a v) b := by
  rw [Memory.readByte_writeWord, Memory.readByte_writeWord]
  split
  · rfl
  · split
    · rfl
    · obtain h | h | h := h
      · exact h
      · contradiction
      · contradiction

/-- Two memories that an instruction has written are alike where they were, and at the bytes that a PUSH has put below
SP. -/
theorem readByte_writtenBy_congr {i : Instr} {s t : State} {m : Memory} {b : Nat} (h : exec i s = .next t)
    (hb : Memory.readByte m b = Memory.readByte s.mem b ∨ (s.sp ≤ b ∧ b < t.sp)) :
    Memory.readByte (writtenBy i s m) b = Memory.readByte t.mem b := by
  rw [exec_mem_eq_writtenBy h]
  have hold (hsp : t.sp ≤ s.sp) : Memory.readByte m b = Memory.readByte s.mem b := by
    obtain hb | hb := hb
    · exact hb
    · omega
  obtain hsp | ⟨rs, rfl, hroom, hsp⟩ | ⟨rd, rfl, hsp⟩ := exec_sp_cases h
  · cases i with
    | push rs | store addr rs =>
      simp only [writtenBy]
      split
      · exact Memory.readByte_writeWord_congr _ (.inl (hold hsp.le))
      · exact hold hsp.le
    | _ => exact hold hsp.le
  · simp only [writtenBy, if_pos hroom]
    refine Memory.readByte_writeWord_congr _ (hb.imp_right fun hb => ?_)
    omega
  · exact hold (by omega)

/-! ### The step -/

/-- Two states with the same configuration, RUN and line at PC step alike: both halt, pass an empty line, take one
fault, or run one instruction. -/
theorem step_of_same_line {s u t : State} (hcfg : u.cfg = s.cfg) (hrun : u.run = s.run)
    (hline : u.prog[u.pc]? = s.prog[s.pc]?) (h : step s = .next t) :
    (t = s.haltOk ∧ step u = .next u.haltOk) ∨ (t = s.advance ∧ step u = .next u.advance) ∨
    (∃ c, t = s.faulted c ∧ step u = .next (u.faulted c)) ∨ (∃ i, exec i s = .next t ∧ step u = exec i u) := by
  have hu : Ready u := by
    obtain ⟨hc, hr⟩ := ready_of_step h
    exact ⟨hcfg ▸ hc, hrun.trans hr⟩
  obtain ⟨hend, rfl⟩ | ⟨hl, rfl⟩ | ⟨line, c, hl, hne, hd, rfl⟩ | ⟨i, ⟨line, hl, hne, hd⟩, hi⟩ := step_cases h
  · rw [← List.getElem?_eq_none_iff, ← hline, List.getElem?_eq_none_iff] at hend
    exact .inl ⟨rfl, step_of_end_of_input hu hend⟩
  · exact .inr (.inl ⟨rfl, step_of_empty_line hu (hline.trans hl)⟩)
  · exact .inr (.inr (.inl ⟨c, rfl, step_of_decode_error hu (hline.trans hl) hne (hcfg ▸ hd)⟩))
  · exact .inr (.inr (.inr ⟨i, hi, step_of_fetches hu ⟨line, hline.trans hl, hne, hcfg ▸ hd⟩⟩))

/-- Settles O26: of the program, the step looks at the line at PC, and the instruction there at whether the next line
is empty. -/
theorem stepReadsOnlyTheLineAtPc : Obligations.StepReadsOnlyTheLineAtPc := by
  intro s t q hline hnext h
  obtain ⟨rfl, hu⟩ | ⟨rfl, hu⟩ | ⟨c, rfl, hu⟩ | ⟨i, hi, hu⟩ :=
    step_of_same_line (s := s) (u := { s with prog := q }) rfl rfl hline h
  · exact hu
  · exact hu
  · exact hu
  · have hr : ReadsAlike i s s.mem q := by
      cases i with
      | ifnz rs => exact hnext
      | _ => simp [ReadsAlike]
    have hexec := exec_of_readsAlike hi hr
    rw [← exec_mem_eq_writtenBy hi] at hexec
    exact hu.trans hexec

/-- No instruction reads a free byte of the stack region: a POP reads below SP, a LOAD from STACK_SIZE up. -/
theorem readsAlike_of_same_but_free_stack {s : State} {m : Memory} (i : Instr)
    (hlow : ∀ a, a < s.sp → Memory.readByte m a = Memory.readByte s.mem a)
    (hheap : ∀ a, s.cfg.stackSize ≤ a → Memory.readByte m a = Memory.readByte s.mem a) :
    ReadsAlike i s m s.prog := by
  cases i with
  | pop rd => exact fun hword => Memory.readWord_congr (hlow _ (by omega)) (hlow _ (by omega))
  | load addr rd => exact fun h0 => Memory.readWord_congr (hheap _ h0) (hheap _ (by omega))
  | ifnz rs => exact Iff.rfl
  | _ => trivial

/-- Settles O34: an instruction reads no free byte, and what it writes it writes in both memories; the bytes that
leave the free part are those a PUSH has just written. -/
theorem freeStackBytesAreUnobservable : Obligations.FreeStackBytesAreUnobservable := by
  rintro s s₂ t ⟨hsame, hlow, hheap⟩ h
  generalize s₂.mem = m at hsame hlow hheap
  subst hsame
  obtain ⟨rfl, hu⟩ | ⟨rfl, hu⟩ | ⟨c, rfl, hu⟩ | ⟨i, hi, hu⟩ :=
    step_of_same_line (s := s) (u := { s with mem := m }) rfl rfl rfl h
  · exact ⟨_, hu, rfl, hlow, hheap⟩
  · exact ⟨_, hu, rfl, hlow, hheap⟩
  · exact ⟨_, hu, rfl, hlow, hheap⟩
  · obtain ⟨-, hcfg⟩ := exec_keeps_prog_cfg hi
    have hexec := exec_of_readsAlike_mem hi (readsAlike_of_same_but_free_stack i hlow hheap)
    refine ⟨_, hu.trans hexec, rfl, fun a ha => ?_, fun a ha => ?_⟩
    · refine readByte_writtenBy_congr hi ?_
      by_cases hsp : a < s.sp
      · exact .inl (hlow a hsp)
      · exact .inr ⟨Nat.le_of_not_lt hsp, ha⟩
    · exact readByte_writtenBy_congr hi (.inl (hheap a (hcfg ▸ ha)))

/-- Settles O33: a PUSH writes below STACK_SIZE, a STORE from there up to the end of memory, and a POP or a LOAD
depends on the word it reads alone. -/
theorem stackAndHeapAreDisjoint : Obligations.StackAndHeapAreDisjoint := by
  refine fun s t r addr => ⟨fun h a ha => ?_, fun h a ha => ?_, fun m hm h => ?_, fun m hsp hm h => ?_, fun m => ?_⟩
  · obtain h | h := h
    · obtain hmem | ⟨rs, -, hroom, hmem⟩ | ⟨addr, rs, hi, -⟩ := exec_mem_cases h
      · rw [hmem]
      · rw [hmem, Memory.readByte_writeWord_outside _ _ (by omega) (by omega)]
      · simp at hi
    · have hmem : t.mem = s.mem := exec_mem_eq_writtenBy h
      rw [hmem]
  · obtain h | h := h
    · obtain hmem | ⟨rs, hi, -⟩ | ⟨addr, rs, -, h0, h1, hmem⟩ := exec_mem_cases h
      · rw [hmem]
      · simp at hi
      · rw [hmem, Memory.readByte_writeWord_outside _ _ (by omega) (by omega)]
    · have hmem : t.mem = s.mem := exec_mem_eq_writtenBy h
      rw [hmem]
  · exact exec_of_readsAlike_mem h fun h0 => Memory.readWord_congr (hm _ h0) (hm _ (Nat.le_succ_of_le h0))
  · exact exec_of_readsAlike_mem h fun hword => Memory.readWord_congr (hm _ (by omega)) (hm _ (by omega))
  · exact ⟨fun h => ⟨_, exec_of_readsAlike_mem h trivial⟩, fun h => ⟨_, exec_of_readsAlike_mem h trivial⟩⟩

end Sys2Proof.Machine
end

section
/-! The invariant (spec/00_scope.md R16; spec/10_state.md R39; spec/20_memory.md R61, R75; spec/60_exceptions.md
R313): it holds at reset, and every update an instruction makes keeps it. -/

namespace Sys2Proof.Machine

theorem decode_error_ne_unknownRegister {c : Config} {line : Line} {e : Cause} (h : decode c line = .error e) :
    e ≠ .unknownRegister := by
  obtain rfl | rfl | rfl | rfl | ⟨rfl, -⟩ := decode_error h <;> simp

theorem unknownRegister_not_mem_raisable (i : Instr) : Cause.unknownRegister ∉ raisable i := by
  cases i <;> simp [raisable]

/-- R61: a valid configuration has a heap word above the stack region, so the stack region is memory. -/
theorem StateInv.stackSize_add_two_le {s : State} (h : StateInv s) : s.cfg.stackSize + 2 ≤ s.cfg.memSize := by
  obtain ⟨-, hroom, -⟩ := Config.wf_iff.1 h.cfgWf
  exact hroom

section
variable {s : State} (h : StateInv s)
include h

theorem StateInv.advance : StateInv s.advance :=
  ⟨h.cfgWf, h.spEven, h.spLe, h.memWf, h.memWithin, h.causeIff, h.causeRaised⟩

theorem StateInv.skip : StateInv s.skip :=
  ⟨h.cfgWf, h.spEven, h.spLe, h.memWf, h.memWithin, h.causeIff, h.causeRaised⟩

theorem StateInv.emit (v : Word) : StateInv (s.emit v) :=
  ⟨h.cfgWf, h.spEven, h.spLe, h.memWf, h.memWithin, h.causeIff, h.causeRaised⟩

theorem StateInv.setReg (r : Reg) (v : Word) : StateInv (s.setReg r v) :=
  ⟨h.cfgWf, h.spEven, h.spLe, h.memWf, h.memWithin, h.causeIff, h.causeRaised⟩

theorem StateInv.setSp {v : Nat} (heven : v % 2 = 0) (hle : v ≤ s.cfg.stackSize) : StateInv (s.setSp v) :=
  ⟨h.cfgWf, heven, hle, h.memWf, h.memWithin, h.causeIff, h.causeRaised⟩

theorem StateInv.storeWord {a : Nat} (ha : a + 1 < s.cfg.memSize) (v : Word) : StateInv (s.storeWord a v) :=
  ⟨h.cfgWf, h.spEven, h.spLe, Memory.writeWord_wf h.memWf a v, Memory.writeWord_within h.memWithin ha v, h.causeIff,
    h.causeRaised⟩

theorem StateInv.faulted {c : Cause} (hnone : c ≠ .none) (hreg : c ≠ .unknownRegister) : StateInv (s.faulted c) :=
  ⟨h.cfgWf, h.spEven, h.spLe, h.memWf, h.memWithin, by simp [hnone], hreg⟩

/-- R39: a running block has no cause, and a halt at end of input gives it none. -/
theorem StateInv.haltOk (hrun : s.run = .running) : StateInv s.haltOk :=
  ⟨h.cfgWf, h.spEven, h.spLe, h.memWf, h.memWithin, by simp [h.causeIff, hrun], h.causeRaised⟩

/-- Every instruction keeps the invariant. -/
theorem StateInv.exec {i : Instr} {t : State} (hi : exec i s = .next t) : StateInv t := by
  have hmem := h.stackSize_add_two_le
  have heven := h.spEven
  have hle := h.spLe
  obtain ⟨c, hc, rfl⟩ | ⟨rs, -, -, -, rfl⟩ | ⟨rs, -, -, rfl⟩ | ⟨rs, -, rfl⟩ | ⟨rd, v, -, -, rfl⟩ | ⟨rs, -, hroom, rfl⟩ |
    ⟨rd, -, hword, rfl⟩ | ⟨addr, rs, -, h0, h1, rfl⟩ := exec_cases hi
  · exact h.faulted (fun e => none_not_mem_raisable i (e ▸ hc)) fun e => unknownRegister_not_mem_raisable i (e ▸ hc)
  · exact h.skip
  · exact h.advance
  · exact (h.emit _).advance
  · exact (h.setReg _ _).advance
  · exact ((h.storeWord (by omega) _).setSp (by omega) hroom).advance
  · exact ((h.setReg _ _).setSp (by omega) (by simp only [State.setReg_cfg]; omega)).advance
  · exact (h.storeWord (by omega) _).advance

end

/-- Settles O27: the invariant through each kind of step. -/
theorem stepKeepsInvariant : Obligations.StepKeepsInvariant := by
  intro s t hs h
  obtain ⟨-, rfl⟩ | ⟨-, rfl⟩ | ⟨line, c, -, -, hd, rfl⟩ | ⟨i, -, hi⟩ := step_cases h
  · exact hs.haltOk (ready_of_step h).2
  · exact hs.advance
  · exact hs.faulted (decode_error_ne_none hd) (decode_error_ne_unknownRegister hd)
  · exact hs.exec hi

/-- The reset values meet the invariant under every valid configuration and with every program. -/
theorem stateInv_of_reset_values {c : Config} (hc : c.wf = true) (prog : List Line) :
    StateInv { State.reset with prog := prog, cfg := c } :=
  ⟨hc, rfl, Nat.zero_le _, rfl, rfl, by simp [State.reset], by simp [State.reset]⟩

/-- Settles O28: the reset state is booted with the default configuration and no program. -/
theorem resetAndBootMeetInvariant : Obligations.ResetAndBootMeetInvariant := by
  refine ⟨stateInv_of_reset_values (c := .default) (by decide) [], fun c prog s hboot => ?_⟩
  obtain ⟨hc, rfl⟩ := boot_eq_next hboot
  exact stateInv_of_reset_values hc prog

end Sys2Proof.Machine
end

section
/-! Reset and the host's ports (spec/00_scope.md R9 to R12; spec/10_state.md R32, R38, R39; spec/60_exceptions.md R301;
spec/70_reset_and_hazards.md R340). -/

namespace Sys2Proof

/-- The codes tell the causes apart (R301). -/
theorem Cause.code_injective : Function.Injective Cause.code := by
  intro c d; cases c <;> cases d <;> decide

theorem Cause.code_eq_zero_iff (c : Cause) : c.code = 0 ↔ c = .none :=
  Cause.code_injective.eq_iff' rfl

end Sys2Proof

namespace Sys2Proof.Machine

/-- Settles O35: every field but the program and the configuration is the reset state's. -/
theorem hostResetRestoresResetValues : Obligations.HostResetRestoresResetValues := by
  refine fun s => ⟨fun r => ?_, rfl, rfl, rfl, rfl, fun _ => rfl, rfl, rfl, rfl⟩
  cases r <;> rfl

/-! ### The register file's ports (R32) -/

theorem index_ofIndex (k : BitVec 2) : (Reg.ofIndex k).index = k := by
  revert k
  decide

/-- A port write is read at its own index alone: two indices of one register are equal. -/
theorem RegFile.readPort_writePort (f : RegFile) (k j : BitVec 2) (v : Word) :
    (f.writePort true k v).readPort j = if j = k then v else f.readPort j := by
  simp only [RegFile.readPort, RegFile.writePort, if_true]
  split
  · rename_i hjk
    rw [hjk, RegFile.read_write_same]
  · rename_i hjk
    refine RegFile.read_write_other _ _ _ _ fun e => hjk ?_
    rw [← index_ofIndex j, e, index_ofIndex]

/-- Settles O45: the registers and the 2-bit indices are in bijection. -/
theorem registerFilePortsAddressEveryRegister : Obligations.RegisterFilePortsAddressEveryRegister :=
  ⟨index_ofIndex, Reg.ofIndex_index, RegFile.readPort_writePort, fun _ _ _ => rfl⟩

/-! ### `STATUS` (R12, R38, R39, R301) -/

/-- The codes tell the run states apart (R38). -/
theorem RunState.code_injective : Function.Injective RunState.code := by
  intro r u; cases r <;> cases u <;> decide

theorem RunState.code_eq_two_iff (r : RunState) : r.code = 2 ↔ r = .haltedFault :=
  RunState.code_injective.eq_iff' rfl

/-- Settles O36: both code tables are injective, which carries R39's equivalence from the state to its port. -/
theorem statusPortShowsRunAndCause : Obligations.StatusPortShowsRunAndCause := by
  refine ⟨fun s t h => ?_, fun _ => rfl, by decide, by decide, fun s hs => ?_, fun s => ?_⟩
  · obtain ⟨hrun, hcause⟩ := Prod.mk.inj h
    exact ⟨RunState.code_injective hrun, Cause.code_injective hcause⟩
  · rw [statusPort, ne_eq, Cause.code_eq_zero_iff, RunState.code_eq_two_iff]
    exact hs.causeIff
  · rw [exitCode]
    cases s.run <;> simp

/-! ### Rendered output (R11) -/

/-- The model's decimal text is the library's digits, most significant first. -/
theorem digits_eq_map_digits {fuel n : Nat} (hfuel : n ≤ fuel) (hn : n ≠ 0) :
    digits fuel n = (Nat.digits 10 n).reverse.map digit := by
  induction fuel generalizing n with
  | zero => omega
  | succ fuel ih =>
    rw [digits, Nat.digits_def' (by omega) (by omega)]
    split
    · rename_i hlt
      simp [Nat.mod_eq_of_lt hlt, Nat.div_eq_of_lt hlt]
    · rw [ih (by omega) (by omega)]
      simp

/-- Settles O37: the rendered value is the library's digits; zero, which has none there, is its own case. -/
theorem outputEventIsRenderedInDecimal : Obligations.OutputEventIsRenderedInDecimal := by
  refine ⟨by decide, fun v hv => ?_⟩
  have hne : v.toNat ≠ 0 := fun h => hv (BitVec.eq_of_toNat_eq h)
  rw [renderEvent, decimal, digits_eq_map_digits (Nat.le_refl _) hne]
  rfl

/-! ### Lines of a file (R9) -/

/-- A byte other than a line feed opens a line, or goes in front of the first one. -/
theorem splitLines_cons_of_ne {b : Byte} (hb : b ≠ lineFeed) (rest : List Byte) :
    (splitLines rest = [] ∧ splitLines (b :: rest) = [[b]]) ∨
    ∃ l ls, splitLines rest = l :: ls ∧ splitLines (b :: rest) = (b :: l) :: ls := by
  cases h : splitLines rest with
  | nil => exact .inl ⟨rfl, by rw [splitLines, if_neg hb, h]⟩
  | cons l ls => exact .inr ⟨l, ls, rfl, by rw [splitLines, if_neg hb, h]⟩

theorem splitLines_cons_lineFeed (rest : List Byte) : splitLines (lineFeed :: rest) = [] :: splitLines rest := by
  rw [splitLines, if_pos rfl]

theorem splitLines_eq_nil_iff {bytes : List Byte} : splitLines bytes = [] ↔ bytes = [] := by
  refine ⟨fun h => ?_, fun h => h ▸ rfl⟩
  cases bytes with
  | nil => rfl
  | cons b rest =>
    by_cases hb : b = lineFeed
    · rw [hb, splitLines_cons_lineFeed] at h
      simp at h
    · obtain ⟨-, e⟩ | ⟨l, ls, -, e⟩ := splitLines_cons_of_ne hb rest <;> simp [e] at h

theorem lineFeed_notMem_of_mem_splitLines {bytes : List Byte} : ∀ l ∈ splitLines bytes, lineFeed ∉ l := by
  induction bytes with
  | nil => simp [splitLines]
  | cons b rest ih =>
    by_cases hb : b = lineFeed
    · rw [hb, splitLines_cons_lineFeed]
      simpa using ih
    · have hb' : lineFeed ≠ b := Ne.symm hb
      obtain ⟨-, e⟩ | ⟨l, ls, h, e⟩ := splitLines_cons_of_ne hb rest
      · simpa [e] using hb'
      · rw [h] at ih
        simpa [e, hb'] using ih

/-- Nothing is left to terminate: the file is empty or ends in a line feed. -/
def EndsInLineFeed (bytes : List Byte) : Prop := bytes = [] ∨ bytes.getLast? = some lineFeed

theorem endsInLineFeed_cons_lineFeed (rest : List Byte) :
    EndsInLineFeed (lineFeed :: rest) ↔ EndsInLineFeed rest := by
  cases rest <;> simp [EndsInLineFeed]

theorem endsInLineFeed_cons_of_ne {b : Byte} (hb : b ≠ lineFeed) (rest : List Byte) :
    EndsInLineFeed (b :: rest) ↔ rest ≠ [] ∧ EndsInLineFeed rest := by
  cases rest <;> simp [EndsInLineFeed, hb]

/-- A line feed after each line gives the file back, with the final line feed added where it was missing. -/
theorem flatMap_splitLines (bytes : List Byte) :
    (EndsInLineFeed bytes → (splitLines bytes).flatMap (· ++ [lineFeed]) = bytes) ∧
    (¬ EndsInLineFeed bytes → (splitLines bytes).flatMap (· ++ [lineFeed]) = bytes ++ [lineFeed]) := by
  induction bytes with
  | nil => simp [splitLines, EndsInLineFeed]
  | cons b rest ih =>
    obtain ⟨ih1, ih2⟩ := ih
    by_cases hb : b = lineFeed
    · rw [hb, splitLines_cons_lineFeed, endsInLineFeed_cons_lineFeed]
      exact ⟨fun h => by simp [ih1 h], fun h => by simp [ih2 h]⟩
    · rw [endsInLineFeed_cons_of_ne hb]
      obtain ⟨hnil, e⟩ | ⟨l, ls, hcons, e⟩ := splitLines_cons_of_ne hb rest
      · obtain rfl := splitLines_eq_nil_iff.1 hnil
        simp [e]
      · have hrest : rest ≠ [] := fun h => by simp [splitLines_eq_nil_iff.2 h] at hcons
        rw [hcons] at ih1 ih2
        simp only [e, hrest, ne_eq, not_false_eq_true, true_and, List.flatMap_cons, List.cons_append] at ih1 ih2 ⊢
        exact ⟨fun h => by rw [ih1 h], fun h => by rw [ih2 h]⟩

/-- Settles O38: the two cases of a final line feed are `flatMap_splitLines`'s. -/
theorem fileSplitsIntoLines : Obligations.FileSplitsIntoLines := by
  intro bytes
  obtain ⟨hends, hopen⟩ := flatMap_splitLines bytes
  exact ⟨lineFeed_notMem_of_mem_splitLines, hends, fun h => hopen (not_or.2 h), rfl⟩

end Sys2Proof.Machine
end

section
/-! Saturating arithmetic and its laws (spec/41_register_arith.md R201 to R210; spec/95_test_vectors.md S1, S2). -/

namespace Sys2Proof.Machine

/-- The wrap test is exact: a sum below its first operand has wrapped (R203). -/
theorem add_lt_left_iff (x y : Word) : x + y < x ↔ 65536 ≤ x.toNat + y.toNat := by
  have := x.isLt
  have := y.isLt
  rw [BitVec.lt_def, BitVec.toNat_add]
  omega

theorem satAdd_comm (x y : Word) : satAdd x y = satAdd y x :=
  BitVec.eq_of_toNat_eq (by rw [satAdd_toNat, satAdd_toNat, Nat.add_comm])

theorem satAdd_zero (x : Word) : satAdd x 0 = x := by
  have := x.isLt
  refine BitVec.eq_of_toNat_eq ?_
  rw [satAdd_toNat, show (0 : Word).toNat = 0 from rfl]
  omega

theorem satSub_zero (x : Word) : satSub x 0 = x :=
  BitVec.eq_of_toNat_eq (by rw [satSub_toNat, show (0 : Word).toNat = 0 from rfl, Nat.sub_zero])

/-- Settles O43: the laws over the integers are those of the clamps. -/
theorem saturatingArithmeticLaws : Obligations.SaturatingArithmeticLaws := by
  refine ⟨fun x y => ⟨add_lt_left_iff x y, ?_, satAdd_toNat x y, satSub_toInt x y, satAdd_comm x y, satAdd_zero x,
    satSub_zero x⟩, by decide⟩
  rw [BitVec.add_comm, add_lt_left_iff, Nat.add_comm]

/-- Settles O44: the second sum is clamped whatever the register held, and a difference below zero is. -/
theorem repeatedAddsClampAndLargeSubsZero : Obligations.RepeatedAddsClampAndLargeSubsZero := by
  refine fun rd v₁ v₂ s => ⟨fun hsum => ?_, fun hlt => ?_⟩
  · have hclamp : satAdd (satAdd (s.reg rd) v₁) v₂ = 65535 := by
      refine BitVec.eq_of_toNat_eq ?_
      rw [satAdd_toNat, satAdd_toNat, show (65535 : Word).toNat = 65535 from rfl]
      have := v₁.isLt
      omega
    refine ⟨_, rfl, ?_, rfl⟩
    simp [hclamp]
  · have hzero : satSub (s.reg rd) v₁ = 0 :=
      BitVec.eq_of_toNat_eq (by rw [satSub_toNat, Nat.sub_eq_zero_of_le hlt.le]; rfl)
    exact ⟨_, exec_subV rd v₁ s, by simp [hzero]⟩

end Sys2Proof.Machine
end

section
/-! The heap instructions, and loads and pops after stores and pushes (spec/20_memory.md R63, R64, R75;
spec/43_stack_heap.md R260 to R265). -/

namespace Sys2Proof.Machine

/-! ### LOAD and STORE -/

theorem exec_load (addr : Word) (rd : Reg) (s : State) : exec (.load addr rd) s = execLoad addr rd s := rfl

theorem exec_store (addr : Word) (rs : Reg) (s : State) : exec (.store addr rs) s = execStore addr rs s := rfl

/-- Settles O51: in the heap, a LOAD is a register write of the word at its address, with the frame the register
instructions have. -/
theorem loadReadsTheHeapWord : Obligations.LoadReadsTheHeapWord := by
  refine fun addr rd s => ⟨encodedAs_iff.2 ⟨rfl, rfl, rfl, rfl, rfl⟩, fun h0 h1 => ?_, execLoad_of_stack rd,
    execLoad_of_past_end rd⟩
  obtain ⟨t, ht, hrd, hframe⟩ := exec_frame_of_setReg ((exec_load addr rd s).trans (execLoad_of_heap rd h0 h1))
  exact ⟨t, ht, by rw [hrd, Memory.readWord_toNat], hframe⟩

/-- Settles O52: in the heap, a STORE is a word store at its address. -/
theorem storeWritesTheHeapWord : Obligations.StoreWritesTheHeapWord := by
  refine fun addr rs s => ⟨encodedAs_iff.2 ⟨rfl, rfl, rfl, rfl, rfl⟩, rfl, fun h0 h1 => ?_, execStore_of_stack rs,
    execStore_of_past_end rs⟩
  have hstore := (exec_store addr rs s).trans (execStore_of_heap rs h0 h1)
  have hlow := Memory.readByte_writeWord_low_toNat s.mem addr.toNat (s.reg rs)
  have hhigh := Memory.readByte_writeWord_high_toNat s.mem addr.toNat (s.reg rs)
  have hmem := s.storeWord_keepsMemoryOutsideWord addr.toNat (s.reg rs)
  exact ⟨_, hstore, hlow, hhigh, rfl, fun _ _ => rfl, rfl, hmem, rfl, rfl, rfl, rfl, rfl⟩

/-! ### Sequences of instructions -/

/-- What holds of the first state and is kept by every instruction of a list holds of the last state. -/
theorem execAll_induction {P : State → Prop} {is : List Instr} {s t : State} (hP : P s)
    (hstep : ∀ i ∈ is, ∀ u v, P u → exec i u = .next v → P v) (h : execAll is s = .next t) : P t := by
  induction is generalizing s with
  | nil =>
    obtain rfl := Host.Outcome.next.inj h
    exact hP
  | cons i is ih =>
    obtain ⟨u, hu⟩ := exec_answers i s
    rw [execAll, hu] at h
    exact ih (hstep i (by simp) s u hP hu) (fun j hj => hstep j (by simp [hj])) h

theorem execAll_cons_of_exec {i : Instr} {is : List Instr} {s t : State} (h : exec i s = .next t) :
    execAll (i :: is) s = execAll is t := by
  rw [execAll, h]

/-- Two words apart do not see each other's bytes. -/
theorem Memory.readWord_writeWord_apart (m : Memory) {a b : Nat} (v : Word) (h : a + 2 ≤ b ∨ b + 2 ≤ a) :
    Memory.readWord (Memory.writeWord m a v) b = Memory.readWord m b :=
  Memory.readWord_congr (Memory.readByte_writeWord_outside m v (by omega) (by omega))
    (Memory.readByte_writeWord_outside m v (by omega) (by omega))

/-- The word at `b` outlasts an instruction that writes apart from it. -/
theorem exec_keeps_word {i : Instr} {s t : State} {b : Nat} (h : exec i s = .next t)
    (hpush : ∀ rs, i = .push rs → s.sp + 2 ≤ s.cfg.stackSize → s.sp + 2 ≤ b ∨ b + 2 ≤ s.sp)
    (hstore : ∀ addr rs, i = .store addr rs → s.cfg.stackSize ≤ addr.toNat →
      addr.toNat + 2 ≤ b ∨ b + 2 ≤ addr.toNat) :
    Memory.readWord t.mem b = Memory.readWord s.mem b := by
  obtain hmem | ⟨rs, hi, hroom, hmem⟩ | ⟨addr, rs, hi, h0, -, hmem⟩ := exec_mem_cases h
  · rw [hmem]
  · rw [hmem, Memory.readWord_writeWord_apart _ _ (hpush rs hi hroom)]
  · rw [hmem, Memory.readWord_writeWord_apart _ _ (hstore addr rs hi h0)]

/-! ### POP after PUSH (R262) -/

/-- Between a PUSH and its POP: the word `v` is on top of the stack, at `a`. -/
structure OnTop (c : Config) (a : Nat) (v : Word) (s : State) : Prop where
  cfg : s.cfg = c
  sp : s.sp = a + 2
  word : Memory.readWord s.mem a = v

/-- An instruction that is neither PUSH nor POP leaves the top of the stack alone: a STORE writes above the stack
region. -/
theorem OnTop.exec {c : Config} {a : Nat} {v : Word} {i : Instr} {s t : State} (hroom : a + 2 ≤ c.stackSize)
    (hs : OnTop c a v s) (hi : isStackInstr i = false) (h : exec i s = .next t) : OnTop c a v t := by
  obtain ⟨rfl, hsp, hword⟩ := hs
  obtain ⟨-, hcfg⟩ := exec_keeps_prog_cfg h
  refine ⟨hcfg, ?_, ?_⟩
  · obtain hsp' | ⟨rs, rfl, -⟩ | ⟨rd, rfl, -⟩ := exec_sp_cases h
    · rw [hsp', hsp]
    · simp [isStackInstr] at hi
    · simp [isStackInstr] at hi
  · rw [← hword]
    refine exec_keeps_word h ?_ fun addr rs _ h0 => .inr (by omega)
    rintro rs rfl
    simp [isStackInstr] at hi

/-- Settles O53: the pushed word stays on top until the POP. -/
theorem popReturnsThePushedValue : Obligations.PopReturnsThePushedValue := by
  intro rs rd is s s₁ s₂ hroom hpush his hall
  obtain rfl := Host.Outcome.next.inj ((execPush_of_room rs hroom).symm.trans hpush)
  have hfirst : OnTop s.cfg s.sp (s.reg rs) ((s.storeWord s.sp (s.reg rs)).setSp (s.sp + 2)).advance :=
    ⟨rfl, rfl, Memory.readWord_writeWord_same s.mem s.sp (s.reg rs)⟩
  obtain ⟨-, hsp, hword⟩ := execAll_induction hfirst (fun i hi u v hu => hu.exec hroom (his i hi)) hall
  refine ⟨_, (exec_pop rd s₂).trans (execPop_of_nonempty rd (by omega)), ?_, ?_⟩
  · simp [hsp, hword]
  · simp [hsp]

/-! ### LOAD after STORE (R64, R265) -/

/-- Between a STORE and a LOAD at its address: the word `v` is at `a`. -/
structure InHeap (c : Config) (a : Nat) (v : Word) (s : State) : Prop where
  cfg : s.cfg = c
  word : Memory.readWord s.mem a = v

/-- An instruction that does not store near a heap word leaves it alone: a PUSH writes below the heap. -/
theorem InHeap.exec {c : Config} {addr v : Word} {i : Instr} {s t : State} (h0 : c.stackSize ≤ addr.toNat)
    (hs : InHeap c addr.toNat v s) (hi : storesNear addr i = false) (h : exec i s = .next t) :
    InHeap c addr.toNat v t := by
  obtain ⟨rfl, hword⟩ := hs
  obtain ⟨-, hcfg⟩ := exec_keeps_prog_cfg h
  refine ⟨hcfg, ?_⟩
  rw [← hword]
  refine exec_keeps_word h (fun rs _ hroom => .inl (by omega)) ?_
  rintro b rs rfl -
  simp only [storesNear, Bool.and_eq_false_iff, decide_eq_false_iff_not] at hi
  omega

/-- Settles O54: the stored word stays in place until the LOAD. -/
theorem loadReturnsTheStoredValue : Obligations.LoadReturnsTheStoredValue := by
  intro addr rs rd is s s₁ s₂ h0 h1 hstore his hall
  obtain rfl := Host.Outcome.next.inj ((execStore_of_heap rs h0 h1).symm.trans hstore)
  have hfirst : InHeap s.cfg addr.toNat (s.reg rs) (s.storeWord addr.toNat (s.reg rs)).advance :=
    ⟨rfl, Memory.readWord_writeWord_same s.mem addr.toNat (s.reg rs)⟩
  obtain ⟨hcfg, hword⟩ := execAll_induction hfirst (fun i hi u v hu => hu.exec h0 (his i hi)) hall
  refine ⟨_, (exec_load addr rd s₂).trans (execLoad_of_heap rd (hcfg ▸ h0) (hcfg ▸ h1)), ?_⟩
  simp [hword]

/-- Settles O55: the LOAD's low byte is the STORE's high byte, and the byte above is untouched. -/
theorem overlappingHeapWordsAreExactPerByte : Obligations.OverlappingHeapWordsAreExactPerByte := by
  intro addr rs rd s h0 h1 hlt
  have hnext : (addr + 1).toNat = addr.toNat + 1 := by
    rw [BitVec.toNat_add, show (1 : Word).toNat = 1 from rfl, Nat.mod_eq_of_lt hlt]
  have hstore := (exec_store addr rs s).trans (execStore_of_heap rs h0 (by omega))
  have hload := execLoad_of_heap (s := (s.storeWord addr.toNat (s.reg rs)).advance) (addr := addr + 1) rd
    (by rw [hnext]; exact Nat.le_succ_of_le h0) (by rw [hnext]; exact h1)
  refine ⟨_, (execAll_cons_of_exec hstore).trans (execAll_cons_of_exec hload), ?_⟩
  have habove : Memory.readByte (Memory.writeWord s.mem addr.toNat (s.reg rs)) (addr.toNat + 1 + 1) =
      Memory.readByte s.mem (addr.toNat + 2) :=
    Memory.readByte_writeWord_outside _ _ (by omega) (by omega)
  simp only [State.advance_reg, State.setReg_reg_same, State.advance_mem, State.storeWord_mem, hnext,
    Memory.readWord_toNat, Memory.readByte_writeWord_high_toNat, habove]

/-! ### A full stack (R75) -/

/-- `k` pushes complete while there is room for `k` words. -/
theorem execAll_replicate_push (rs : Reg) (k : Nat) {s : State} (h : s.sp + 2 * k ≤ s.cfg.stackSize) :
    ∃ t, execAll (List.replicate k (.push rs)) s = .next t ∧ t.run = s.run ∧ t.sp = s.sp + 2 * k ∧
      t.cfg = s.cfg := by
  induction k generalizing s with
  | zero => exact ⟨s, rfl, rfl, rfl, rfl⟩
  | succ k ih =>
    have hpush := (exec_push rs s).trans (execPush_of_room rs (by omega))
    rw [List.replicate_succ, execAll_cons_of_exec hpush]
    obtain ⟨t, ht, hrun, hsp, hcfg⟩ := ih (s := ((s.storeWord s.sp (s.reg rs)).setSp (s.sp + 2)).advance)
      (by simp only [State.advance_sp, State.setSp_sp, State.advance_cfg, State.setSp_cfg, State.storeWord_cfg]; omega)
    refine ⟨t, ht, hrun, hsp.trans ?_, hcfg⟩
    simp only [State.advance_sp, State.setSp_sp]
    omega

/-- Settles O56: `STACK_SIZE / 2` words fit, and at most one byte is left for the next. -/
theorem stackHoldsHalfItsSizeInWords : Obligations.StackHoldsHalfItsSizeInWords := by
  refine fun rs s hsp hrun => ⟨fun k hk => ?_, fun t ht => ?_⟩
  · obtain ⟨t, ht, htrun, htsp, -⟩ := execAll_replicate_push rs k (s := s) (by omega)
    exact ⟨t, ht, htrun.trans hrun, by omega⟩
  · obtain ⟨u, hu, -, husp, hucfg⟩ := execAll_replicate_push rs (s.cfg.stackSize / 2) (s := s) (by omega)
    obtain rfl := Host.Outcome.next.inj (hu.symm.trans ht)
    have hfull : u.cfg.stackSize < u.sp + 2 := by
      rw [hucfg]
      omega
    exact (exec_push rs u).trans (execPush_of_full rs hfull)

end Sys2Proof.Machine
end
